-- ==== Sys2Proof/Word.lean ====
section
/-! DEFINITION. The words of the block: command and response words, register values, feedback polynomials, fault codes
(00_scope.md R7, R8). All values are unsigned and bit 0 is the least significant. -/

namespace Sys2Proof

/-- A command word or a response word, 32 bits (30_encoding.md R60, R66). -/
abbrev Word := BitVec 32

/-- A tap mask or a shift-register value, 24 bits (`W_TAPS`, `W_REG`), and the operand field `IMM` (R7, R60). -/
abbrev Word24 := BitVec 24

/-- A feedback polynomial over GF(2), 25 bits (`W_POLY`): bit `i` set means the term of degree `i` is present
(R7, R8, 10_state.md R27). -/
abbrev Poly := BitVec 25

/-- A value of the `FAULT` register, 4 bits (`W_FAULT`, R7). -/
abbrev Code := BitVec 4

end Sys2Proof
end

