-- ==== Sys2Proof/Syntax.lean ====
section
/-! DEFINITION. The commands, one constructor per row of spec/opcode_table.json (30_encoding.md R62, R63). -/

namespace Sys2Proof

/-- A decoded command. The operand fields have the width of `IMM`, so every term is well formed: R63 admits every
24-bit value where it admits an operand at all. -/
inductive Instr where
  /-- SELECT: choose a feedback polynomial from the cache (40_polynomial_cache.md R92). -/
  | select
  /-- SEED: load the register with a drawn nonzero value (41_lfsr_engine.md R118). -/
  | seed
  /-- STEP: advance the register one step (41_lfsr_engine.md R115). -/
  | step
  /-- LDTAPS: load a tap mask supplied by the host (41_lfsr_engine.md R116). -/
  | ldtaps (imm : Word24)
  /-- LDREG: load a register value supplied by the host (41_lfsr_engine.md R117). -/
  | ldreg (imm : Word24)
  /-- READ selector 0 (42_register_access.md R140). -/
  | readTaps
  /-- READ selector 1 (42_register_access.md R140). -/
  | readDeg
  /-- READ selector 2 (42_register_access.md R140). -/
  | readReg
  /-- READ selector 3 (42_register_access.md R140). -/
  | readFault
  /-- READ selector 4 (42_register_access.md R140). -/
  | readPoolcount
  /-- READ selector 5, the cache entry at the index `imm` (42_register_access.md R140). -/
  | readPool (imm : Word24)
  deriving DecidableEq, Repr

end Sys2Proof
end

