-- ==== Sys2Proof/Decode.lean ====
section
/-! DEFINITION. The decoder, total on 32-bit words, and after it the encoder (30_encoding.md R60 to R67). -/

namespace Sys2Proof

/-- `OPC`, bits 31..28 (R60). -/
def opcField (w : Word) : BitVec 4 := w.extractLsb' 28 4

/-- `SEL`, bits 27..24 (R60, R61). -/
def selField (w : Word) : BitVec 4 := w.extractLsb' 24 4

/-- `IMM`, bits 23..0, unsigned and used as is (R60, R61). -/
def immField (w : Word) : Word24 := w.extractLsb' 0 24

/-- The command a READ word with the selector `sel` in 0..4 names (10_state.md R32, 42_register_access.md R140). -/
def decodeRead (sel : BitVec 4) : Option Instr :=
  if sel = 0#4 then some .readTaps
  else if sel = 1#4 then some .readDeg
  else if sel = 2#4 then some .readReg
  else if sel = 3#4 then some .readFault
  else if sel = 4#4 then some .readPoolcount
  else none

/-- The decoder of R67, in its order; `none` is ILLEGAL (R64, R141). -/
def decode (w : Word) : Option Instr :=
  if opcField w = 1#4 ∧ selField w = 0#4 ∧ immField w = 0#24 then some .select
  else if opcField w = 2#4 ∧ selField w = 0#4 ∧ immField w = 0#24 then some .seed
  else if opcField w = 3#4 ∧ selField w = 0#4 ∧ immField w = 0#24 then some .step
  else if opcField w = 4#4 ∧ selField w = 0#4 then some (.ldtaps (immField w))
  else if opcField w = 5#4 ∧ selField w = 0#4 then some (.ldreg (immField w))
  else if opcField w = 6#4 ∧ selField w ≤ 4#4 ∧ immField w = 0#24 then decodeRead (selField w)
  else if opcField w = 6#4 ∧ selField w = 5#4 then some (.readPool (immField w))
  else none

/-- A word of the one format `C` (R60): `OPC` above `SEL` above `IMM`. -/
def formatC (opc sel : BitVec 4) (imm : Word24) : Word := opc ++ (sel ++ imm)

/-- The word of a command (R63, R68). -/
def encode : Instr → Word
  | .select => formatC 1#4 0#4 0#24
  | .seed => formatC 2#4 0#4 0#24
  | .step => formatC 3#4 0#4 0#24
  | .ldtaps imm => formatC 4#4 0#4 imm
  | .ldreg imm => formatC 5#4 0#4 imm
  | .readTaps => formatC 6#4 0#4 0#24
  | .readDeg => formatC 6#4 1#4 0#24
  | .readReg => formatC 6#4 2#4 0#24
  | .readFault => formatC 6#4 3#4 0#24
  | .readPoolcount => formatC 6#4 4#4 0#24
  | .readPool imm => formatC 6#4 5#4 imm

/-- The exact patterns of R63 as (mask, match): a word is of the row when the masked word is the match. -/
def patternTable : List (Word × Word) :=
  [ (0xFFFFFFFF#32, 0x10000000#32), (0xFFFFFFFF#32, 0x20000000#32), (0xFFFFFFFF#32, 0x30000000#32),
    (0xFF000000#32, 0x40000000#32), (0xFF000000#32, 0x50000000#32), (0xFFFFFFFF#32, 0x60000000#32),
    (0xFFFFFFFF#32, 0x61000000#32), (0xFFFFFFFF#32, 0x62000000#32), (0xFFFFFFFF#32, 0x63000000#32),
    (0xFFFFFFFF#32, 0x64000000#32), (0xFF000000#32, 0x65000000#32) ]

/-- The rows of R63 that a word is of. -/
def patternsOf (w : Word) : List (Word × Word) := patternTable.filter (fun row => w &&& row.1 == row.2)

/-- The command of a word given as a number whose low `nbits` bits count. A command word crosses the port as one whole
32-bit unit (20_memory.md R41), so there are no bytes to lay out. -/
def decodeTableWord (nbits w : Nat) : Option Instr := decode (BitVec.ofNat 32 (w % 2 ^ nbits))

end Sys2Proof
end

