-- ==== Sys2Proof/Config.lean ====
section
/-! DEFINITION. What is fixed for one block, and the values the spec leaves open (00_scope.md R7, R11). -/

namespace Sys2Proof

/-- `DEG_MIN`, the lowest degree of a pool polynomial (R7). -/
def Config.degMin : Nat := 18

/-- `DEG_MAX`, the highest degree of a pool polynomial and the widest register (R7). -/
def Config.degMax : Nat := 24

/-- `TERMS`, the number of nonzero terms of a pool polynomial (R7). -/
def Config.terms : Nat := 4

/-- `TRIAL_MIN`, the first trial divisor (R7, 40_polynomial_cache.md R82, 90_conflicts.md C5). -/
def Config.trialMin : Nat := 3

/-- `POOL` when nothing else is supplied. R7 and R88 make it `BuildPool(TRIAL_MIN)`, which R89 shows to be the empty
list; the obligation `NormativePoolIsEmpty` says the same of the search as modelled. -/
def Config.pool : List Poly := []

/-- The number of instances beyond the first. OPEN (R7: `N_INSTANCES` is any natural number at least 1), so it has no
body and nothing can be proved about its value. DESIGN CHOICE, safe: notes/assumptions/4.md. -/
opaque Config.otherInstances : Nat

/-- `N_INSTANCES` (R7, 60_exceptions.md R160). -/
def Config.nInstances : Nat := Config.otherInstances + 1

/-- The entropy source, as `State.withFetchWord` hears it: its raw answer for the n-th entry of the trace. It has no
body, so no value of it can be proved (R6, R11: an oracle outside the state). DESIGN CHOICE, safe:
notes/assumptions/3.md. -/
opaque Config.entropy : Nat → Nat

end Sys2Proof
end

