-- ==== Sys2Proof/Machine/State.lean ====
section
/-! DEFINITION. The state of the block as plain data: the instances, the shared cache, and the host's side of the
command ports (10_state.md, 60_exceptions.md R163). -/

namespace Sys2Proof.Machine

/-- The registers of one generator instance: exactly these three (10_state.md R20). `DEG` is a function of `taps`
(R22, `deg` in Operands.lean). -/
structure Inst where
  /-- `TAPS`, the tap mask; 0 means not configured (R21). -/
  taps : Word24
  /-- `REG`, the shift register; 0 means not seeded (R23). -/
  reg : Word24
  /-- `FAULT`, the sticky fault record; anything but 0 means halted (R25). -/
  fault : Code
  deriving DecidableEq, Repr

/-- An instance after reset (R21, R23, R25, 70_reset_and_hazards.md R180). -/
def Inst.reset : Inst := { taps := 0#24, reg := 0#24, fault := 0#4 }

/-- What the host does to the block (60_exceptions.md R163). -/
inductive HostEvent where
  /-- A command word written to the port of instance `port` (30_encoding.md R60). `draw` is the raw answer the entropy
  source gives while this command runs: a FREE VALUE, any number, used by SELECT and SEED only (00_scope.md R6, R11;
  notes/assumptions/1.md). -/
  | command (port : Nat) (word : Word) (draw : Nat)
  /-- The reset event of instance `port` (70_reset_and_hazards.md R180). -/
  | reset (port : Nat)
  deriving DecidableEq, Repr

/-- A response word and the port it came back on (30_encoding.md R60, R66). -/
structure Response where
  port : Nat
  word : Word
  deriving DecidableEq, Repr

/-- What a run is made of (70_reset_and_hazards.md R188). notes/assumptions/6.md. -/
inductive TraceEntry where
  /-- Instance `port` was given the word `command`, with the raw answer `draw` of the entropy source, and answered
  `response` (30_encoding.md R60). -/
  | exchange (port : Nat) (command : Word) (draw : Nat) (response : Word)
  /-- Instance `port` was reset. -/
  | reset (port : Nat)
  deriving DecidableEq, Repr

/-- The state of the block. `insts` and `pool` are the spec's; `host`, `port`, `command`, `draw` and `trace` are the
model's own fields for the host's side, which R33 and R188 call the host's input, the draws and the responses. -/
structure State where
  /-- The instances, numbered from 0 by the platform (R20, 60_exceptions.md R160). -/
  insts : List Inst
  /-- `POOL`, the shared cache; no step writes it (R26, 20_memory.md R50). notes/assumptions/5.md. -/
  pool : List Poly
  /-- The host's events still to come, oldest first (R29, R33). notes/assumptions/3.md. -/
  host : List HostEvent
  /-- The instance whose command is being executed (30_encoding.md R60). notes/assumptions/2.md. -/
  port : Nat
  /-- The word of that command (R60). notes/assumptions/2.md. -/
  command : Word
  /-- The entropy source's raw answer for that command, a FREE VALUE (R6, R11). notes/assumptions/1.md and 2.md. -/
  draw : Nat
  /-- The commands answered and the instances reset so far, oldest first (70_reset_and_hazards.md R188). No rule reads
  it. notes/assumptions/6.md. -/
  trace : List TraceEntry
  deriving DecidableEq, Repr

/-- The response that an entry of the trace records, if it records one. -/
def TraceEntry.response? : TraceEntry → Option Response
  | .exchange port _ _ response => some ⟨port, response⟩
  | .reset _ => none

/-- The responses sent so far, oldest first (30_encoding.md R60). -/
def State.responses (s : State) : List Response := s.trace.filterMap TraceEntry.response?

/-- A block built with the pool `pool` and `n` instances, before the host's first event (R7, 20_memory.md R50,
70_reset_and_hazards.md R180, R181). -/
def State.powerUp (pool : List Poly) (n : Nat) : State :=
  { insts := List.replicate n Inst.reset, pool := pool, host := [], port := 0, command := 0#32, draw := 0,
    trace := [] }

/-- The block right after reset, with the normative pool and `N_INSTANCES` instances (R7, R180, R181). -/
def State.reset : State := State.powerUp Config.pool Config.nInstances

/-- Why the model stops. No fault of the spec is here: those are next states, with `FAULT` written (60_exceptions.md
R151). -/
inductive Fault where
  /-- Raised by every meaning, by an illegal word and by the reset event when they are addressed to a port that no
  instance has. Instances are numbered `0 .. N_INSTANCES - 1` (60_exceptions.md R160), so the spec has no such port.
  Safe: the model stops where the spec gives nothing (notes/assumptions/7.md). -/
  | noSuchInstance (port : Nat)
  deriving DecidableEq, Repr

/-- Why an instruction has no meaning. -/
inductive Refusal where
  /-- Raised by an arm of `exec` whose instruction is not modelled yet; no arm does. Safe. -/
  | notModelled (mnemonic : String)
  deriving DecidableEq, Repr

end Sys2Proof.Machine
end

