-- ==== Sys2Proof/Machine/Operands.lean ====
section
/-! DEFINITION. The bit functions of 00_scope.md R8 to R11, the derived degree (10_state.md R22), and the ranges of the
two draws. -/

namespace Sys2Proof.Machine

/-- `msb(v)`, the position of the highest set bit (R10). R10 leaves `msb(0)` undefined and applies it to no rule; here
it is 0 (DEDUCED, safe: notes/assumptions/9.md). -/
def msb (v : Nat) : Nat := Nat.log2 v

/-- `popcount(v)`, the number of set bits (R9). -/
def popcount {w : Nat} (v : BitVec w) : Nat := (List.range w).countP (fun i => v.getLsbD i)

/-- `parity(v) = popcount(v) mod 2` (R9), as a bit. -/
def parity {w : Nat} (v : BitVec w) : Bool := popcount v % 2 == 1

/-- `mask(n)`, the `n` low bits set (R9), in the width of the register. -/
def mask (n : Nat) : Word24 := BitVec.ofNat 24 (2 ^ n - 1)

/-- `DEG = msb((TAPS << 1) | 1)`, 0 when not configured (10_state.md R22, 90_conflicts.md C2). -/
def deg (taps : Word24) : Nat := msb (taps.toNat <<< 1 ||| 1)

/-- `deg(P) = msb(P)`, the degree of a polynomial (R10). -/
def polyDeg (p : Poly) : Nat := msb p.toNat

/-- `TAPS = P >> 1`, 24 bits (90_conflicts.md C1, 40_polynomial_cache.md R92). -/
def tapsOf (p : Poly) : Word24 := (p >>> 1).setWidth 24

/-- `draw_index(n)`, an index in `[0, n - 1]` made from the raw draw; every index of the range is made from some raw
draw (R11, 40_polynomial_cache.md R93). DESIGN CHOICE, safe: notes/assumptions/1.md. -/
def drawIndex (draw n : Nat) : Nat := draw % n

/-- `draw_seed(d)`, a value in `[1, 2^d - 1]` made from the raw draw; every value of the range is made from some raw
draw (R11, 41_lfsr_engine.md R118). DESIGN CHOICE, safe: notes/assumptions/1.md. -/
def drawSeed (draw d : Nat) : Word24 := BitVec.ofNat 24 (1 + draw % (2 ^ d - 1))

end Sys2Proof.Machine
end

