-- ==== Sys2Proof/Machine/Flags.lean ====
section
/-! DEFINITION. The response words with their `ERR` and `OUT` bits (30_encoding.md R66). The block keeps no flags and
no condition codes (10_state.md R30): these bits exist in a response only. -/

namespace Sys2Proof.Machine

/-- SELECT or LDTAPS completed: `(DEG << 24) | TAPS` (R66). -/
def configResponse (degree : Nat) (taps : Word24) : Word := (BitVec.ofNat 32 degree <<< 24) ||| taps.setWidth 32

/-- SEED or LDREG completed: `REG` (R66). -/
def regResponse (reg : Word24) : Word := reg.setWidth 32

/-- STEP completed: `(OUT << 24) | REG` (R66). -/
def stepResponse (out : Bool) (reg : Word24) : Word := ((BitVec.ofBool out).setWidth 32 <<< 24) ||| reg.setWidth 32

/-- READ completed: the value, zero-extended from 25 bits (R66, 42_register_access.md R140). -/
def readResponse (value : BitVec 25) : Word := value.setWidth 32

/-- A command faulted or refused: `0x80000000 | FAULT` (R66, 60_exceptions.md R151, R152). -/
def errorResponse (fault : Code) : Word := 0x80000000#32 ||| fault.setWidth 32

end Sys2Proof.Machine
end

