-- ==== Sys2Proof/Machine/Ops.lean ====
section
/-! DEFINITION. The named operations over the state: the addressed instance, the cache, sending a response, taking a
fault (60_exceptions.md R151), reset (70_reset_and_hazards.md R180), and the command cycle with its halted check
(60_exceptions.md R152), which every meaning goes through. -/

namespace Sys2Proof.Machine

/-- The causes of a fault (60_exceptions.md R150). -/
inductive Cause where
  | illegalCommand
  | notConfigured
  | unseeded
  | zeroTaps
  | zeroSeed
  | seedRange
  | poolEmpty
  | poolIndex
  deriving DecidableEq, Repr

/-- The code of a cause (60_exceptions.md R150). -/
def causeCode : Cause → Code
  | .illegalCommand => 1#4
  | .notConfigured => 2#4
  | .unseeded => 3#4
  | .zeroTaps => 4#4
  | .zeroSeed => 5#4
  | .seedRange => 6#4
  | .poolEmpty => 7#4
  | .poolIndex => 8#4

/-- How the rule of a command ends: its writes and its response, or a fault (00_scope.md R12). -/
inductive Ending where
  | completes (r : Inst) (response : Word)
  | raises (c : Cause)
  deriving DecidableEq, Repr

/-- The registers of the addressed instance, if there is one. -/
def State.current (s : State) : Option Inst := s.insts[s.port]?

/-- Writes the registers of the addressed instance. -/
def State.putInst (s : State) (r : Inst) : State := { s with insts := s.insts.set s.port r }

/-- Sends a response to the host (00_scope.md R11, 30_encoding.md R60), which ends the exchange that the command began
(70_reset_and_hazards.md R188). -/
def State.respond (s : State) (w : Word) : State :=
  { s with trace := s.trace ++ [.exchange s.port s.command s.draw w] }

/-- `POOL_COUNT` (10_state.md R26). -/
def State.poolCount (s : State) : Nat := s.pool.length

/-- `PoolRead(i)`, defined by the rules for `i < POOL_COUNT` only (00_scope.md R11). Past the end, where every rule
faults first, this reads 0 (DEDUCED, safe: notes/assumptions/9.md). -/
def State.poolRead (s : State) (i : Nat) : Poly := s.pool.getD i 0#25

/-- Fault entry, `raise Fault(code)` (60_exceptions.md R151): of the instance's registers only `FAULT` may change, and
only while it is 0; the response carries the code `FAULT` then holds. `r` is the instance as the command found it. -/
def raiseFault (c : Cause) (r : Inst) (s : State) : State :=
  let r' : Inst := if r.fault = 0#4 then { r with fault := causeCode c } else r
  (s.putInst r').respond (errorResponse r'.fault)

/-- A halted instance refuses a command: the error response, no state changes (60_exceptions.md R152). -/
def refuse (r : Inst) (s : State) : State := s.respond (errorResponse r.fault)

/-- Carries out how a command ended on the addressed instance `r`. -/
def settle (r : Inst) (s : State) : Ending → State
  | .completes r' w => (s.putInst r').respond w
  | .raises c => raiseFault c r s

/-- The command cycle of 60_exceptions.md R152 for READ, which a halted instance still executes. -/
def runRead (s : State) (rule : Inst → Ending) : Host.Outcome State Fault Refusal :=
  match s.current with
  | none => .fault (.noSuchInstance s.port)
  | some r => .next (settle r s (rule r))

/-- The command cycle of 60_exceptions.md R152 for every other word: the halted check, then the rule. -/
def runCommand (s : State) (rule : Inst → Ending) : Host.Outcome State Fault Refusal :=
  match s.current with
  | none => .fault (.noSuchInstance s.port)
  | some r => if r.fault ≠ 0#4 then .next (refuse r s) else .next (settle r s (rule r))

/-- An illegal word: refused when halted, else ILLEGAL_COMMAND (30_encoding.md R64, 60_exceptions.md R152). -/
def execIllegal (s : State) : Host.Outcome State Fault Refusal := runCommand s (fun _ => .raises .illegalCommand)

/-- The reset event of instance `port` (70_reset_and_hazards.md R180): its registers become 0, no response is sent,
and neither the cache nor any other instance is touched. The only way out of a fault (60_exceptions.md R154), and the
start of the instance's next run (R188). -/
def resetPort (port : Nat) (s : State) : Host.Outcome State Fault Refusal :=
  if port < s.insts.length then
    .next { s with insts := s.insts.set port Inst.reset, trace := s.trace ++ [.reset port] }
  else .fault (.noSuchInstance port)

end Sys2Proof.Machine
end

