-- ==== Sys2Proof/Machine/Access.lean ====
section
/-! DEFINITION. Register access: the six READ commands (42_register_access.md R140). None of them writes anything, and a
halted instance still executes them (60_exceptions.md R152). -/

namespace Sys2Proof.Machine

/-- READ of a value: no register changes, the value is the response (R140). -/
def readRule (value : Inst → BitVec 25) (r : Inst) : Ending := .completes r (readResponse (value r))

/-- READ selector 5 (R140): POOL_INDEX at or past the end of the cache. -/
def readPoolRule (s : State) (imm : Word24) (r : Inst) : Ending :=
  if s.poolCount ≤ imm.toNat then .raises .poolIndex
  else .completes r (readResponse (s.poolRead imm.toNat))

/-- READ TAPS (R140). -/
def execReadTaps (s : State) : Host.Outcome State Fault Refusal := runRead s (readRule (fun r => r.taps.setWidth 25))

/-- READ DEG (R140). -/
def execReadDeg (s : State) : Host.Outcome State Fault Refusal :=
  runRead s (readRule (fun r => BitVec.ofNat 25 (deg r.taps)))

/-- READ REG (R140). -/
def execReadReg (s : State) : Host.Outcome State Fault Refusal := runRead s (readRule (fun r => r.reg.setWidth 25))

/-- READ FAULT (R140). -/
def execReadFault (s : State) : Host.Outcome State Fault Refusal := runRead s (readRule (fun r => r.fault.setWidth 25))

/-- READ POOLCOUNT (R140). The count of an admissible pool fits in 25 bits (40_polynomial_cache.md R88); of a longer
list, which no rule admits, the low 25 bits are read (DESIGN CHOICE, unsafe for such pools only:
notes/assumptions/10.md). -/
def execReadPoolcount (s : State) : Host.Outcome State Fault Refusal :=
  runRead s (readRule (fun _ => BitVec.ofNat 25 s.poolCount))

/-- READ POOL, i (R140). -/
def execReadPool (imm : Word24) (s : State) : Host.Outcome State Fault Refusal := runRead s (readPoolRule s imm)

end Sys2Proof.Machine
end

