-- ==== Sys2Proof/Machine/Engine.lean ====
section
/-! DEFINITION. The LFSR engine: the step function and STEP, SEED, LDTAPS, LDREG (41_lfsr_engine.md). -/

namespace Sys2Proof.Machine

/-- The feedback bit of a step, the parity of the tapped bits (R110). -/
def feedback (reg taps : Word24) : Bool := parity (reg &&& taps)

/-- `StepFn(r, t)`: the new register and the output bit (R110). Bit 24 of `r << 1` is lost here at once; R110 loses it
to `mask(d)`, as `d` is at most 24. -/
def stepFn (reg taps : Word24) : Word24 × Bool :=
  let n := ((reg <<< 1) ||| (BitVec.ofBool (feedback reg taps)).setWidth 24) &&& mask (deg taps)
  (n, n.getLsbD 0)

/-- STEP (R115). -/
def stepRule (r : Inst) : Ending :=
  if deg r.taps = 0 then .raises .notConfigured
  else if r.reg = 0#24 then .raises .unseeded
  else
    let n := stepFn r.reg r.taps
    .completes { r with reg := n.1 } (stepResponse n.2 n.1)

/-- LDTAPS (R116). -/
def ldtapsRule (imm : Word24) (r : Inst) : Ending :=
  if imm = 0#24 then .raises .zeroTaps
  else .completes { r with taps := imm, reg := 0#24 } (configResponse (msb imm.toNat + 1) imm)

/-- LDREG (R117), its checks in the order of R153. -/
def ldregRule (imm : Word24) (r : Inst) : Ending :=
  if deg r.taps = 0 then .raises .notConfigured
  else if imm = 0#24 then .raises .zeroSeed
  else if 2 ^ deg r.taps ≤ imm.toNat then .raises .seedRange
  else .completes { r with reg := imm } (regResponse imm)

/-- SEED (R118) with the raw draw `draw`. -/
def seedRule (draw : Nat) (r : Inst) : Ending :=
  if deg r.taps = 0 then .raises .notConfigured
  else
    let v := drawSeed draw (deg r.taps)
    .completes { r with reg := v } (regResponse v)

/-- STEP (R115) in the command cycle. -/
def execStep (s : State) : Host.Outcome State Fault Refusal := runCommand s stepRule

/-- SEED (R118) in the command cycle. -/
def execSeed (s : State) : Host.Outcome State Fault Refusal := runCommand s (seedRule s.draw)

/-- LDTAPS (R116) in the command cycle. -/
def execLdtaps (imm : Word24) (s : State) : Host.Outcome State Fault Refusal := runCommand s (ldtapsRule imm)

/-- LDREG (R117) in the command cycle. -/
def execLdreg (imm : Word24) (s : State) : Host.Outcome State Fault Refusal := runCommand s (ldregRule imm)

end Sys2Proof.Machine
end

