-- ==== Sys2Proof/Machine/Selector.lean ====
section
/-! DEFINITION. The polynomial selector: GF(2) remainder, the trial-division test, the candidates and the search that
fills the cache, admissible pools, and SELECT (40_polynomial_cache.md). The search runs once, offline, before the first
command (20_memory.md R50). -/

namespace Sys2Proof.Machine

/-- The loop of `GF2Mod`, at most `fuel` passes (R80). -/
def gf2ModLoop : Nat → Nat → Nat → Nat
  | 0, a, _ => a
  | fuel + 1, a, b =>
    if a ≠ 0 ∧ msb b ≤ msb a then gf2ModLoop fuel (a ^^^ (b <<< (msb a - msb b))) b else a

/-- `GF2Mod(a, b)` for `b >= 1` (R80); the loop ends within `msb(a) - msb(b) + 1` passes. -/
def gf2Mod (a b : Nat) : Nat := gf2ModLoop (msb a + 1) a b

/-- `Divides(t, P)` (R81). -/
def divides (t p : Nat) : Bool := gf2Mod p t == 0

/-- The loop of `PassesTrial`: tries `t`, `t + 2`, ... below `bound`, at most `fuel` of them (R82). -/
def trialLoop : Nat → Nat → Nat → Nat → Bool
  | 0, _, _, _ => true
  | fuel + 1, p, bound, t =>
    if t < bound then (if divides t p then false else trialLoop fuel p bound (t + 2)) else true

/-- `PassesTrial(P, TRIAL_MIN)` (R82); trial values go up by 2, so `2^(k+1)` of them pass the bound. -/
def passesTrial (p trialMin : Nat) : Bool :=
  trialLoop (2 ^ (msb p / 2 + 1)) p (2 ^ (msb p / 2 + 1)) trialMin

/-- `P(d, p1, p2)` (R84). -/
def candidate (d p1 p2 : Nat) : Nat := 1 <<< d ||| 1 <<< p1 ||| 1 <<< p2 ||| 1

/-- `hi, hi - 1, ..., lo`, empty when `hi < lo` (the "down to" of R85, R87). -/
def downTo (hi lo : Nat) : List Nat := (List.range' lo (hi + 1 - lo)).reverse

/-- The candidates of degree `d` in the order of R85: `p1` from `d - 1` down to 2, `p2` from `p1 - 1` down to 1. -/
def candidates (d : Nat) : List Nat :=
  (downTo (d - 1) 2).flatMap (fun p1 => (downTo (p1 - 1) 1).map (fun p2 => candidate d p1 p2))

/-- `BuildPool(TRIAL_MIN)` (R87): degrees ascending, each passing candidate once (R86). -/
def buildPool (trialMin : Nat) : List Poly :=
  (List.range' Config.degMin (Config.degMax + 1 - Config.degMin)).flatMap (fun d =>
    ((candidates d).filter (fun p => passesTrial p trialMin)).map (BitVec.ofNat 25))

/-- An admissible entry (10_state.md R27): degree 18 to 24, bit 0 set, exactly 4 set bits. Bit `d` is set and the bits
above it clear because `d` is the degree. -/
def admissibleEntry (p : Poly) : Bool :=
  decide (Config.degMin ≤ polyDeg p) && decide (polyDeg p ≤ Config.degMax) && p.getLsbD 0 &&
    decide (popcount p = Config.terms)

/-- An admissible pool (R88). -/
def admissiblePool (pool : List Poly) : Bool := pool.all admissibleEntry && decide (pool.length ≤ 2 ^ 24)

/-- SELECT (R92). -/
def selectRule (s : State) (r : Inst) : Ending :=
  if s.poolCount = 0 then .raises .poolEmpty
  else
    let p := s.poolRead (drawIndex s.draw s.poolCount)
    .completes { r with taps := tapsOf p, reg := 0#24 } (configResponse (polyDeg p) (tapsOf p))

/-- SELECT (R92) in the command cycle. -/
def execSelect (s : State) : Host.Outcome State Fault Refusal := runCommand s (selectRule s)

end Sys2Proof.Machine
end

