-- ==== Sys2Proof/Machine/Dispatch.lean ====
section
/-! DEFINITION. The meaning of each command, one arm per constructor of Instr. -/

namespace Sys2Proof.Machine

def exec (i : Instr) (s : State) : Host.Outcome State Fault Refusal :=
  match i with
  | .select => Sys2Proof.Machine.execSelect s
  | .seed => Sys2Proof.Machine.execSeed s
  | .step => Sys2Proof.Machine.execStep s
  | .ldtaps imm => Sys2Proof.Machine.execLdtaps imm s
  | .ldreg imm => Sys2Proof.Machine.execLdreg imm s
  | .readTaps => Sys2Proof.Machine.execReadTaps s
  | .readDeg => Sys2Proof.Machine.execReadDeg s
  | .readReg => Sys2Proof.Machine.execReadReg s
  | .readFault => Sys2Proof.Machine.execReadFault s
  | .readPoolcount => Sys2Proof.Machine.execReadPoolcount s
  | .readPool imm => Sys2Proof.Machine.execReadPool imm s

end Sys2Proof.Machine
end

