-- ==== Sys2Proof/Machine/Fetch.lean ====
section
/-! DEFINITION. Taking the host's next event, and executing a command word (60_exceptions.md R152). -/

namespace Sys2Proof.Machine

/-- What the block finds to do next. -/
inductive Fetched where
  /-- No event has come: the block waits (60_exceptions.md R162, 70_reset_and_hazards.md R181). -/
  | idle
  /-- A reset event for `port`; `s` is the state with the event taken. -/
  | reset (port : Nat) (s : State)
  /-- A command word; `s` is the state with the command accepted. -/
  | command (w : Word) (s : State)

/-- Accepts the command `word` on `port` with the entropy source's raw answer `draw`. -/
def State.accept (s : State) (port : Nat) (word : Word) (draw : Nat) (rest : List HostEvent) : State :=
  { s with host := rest, port := port, command := word, draw := draw }

/-- Takes the host's oldest event, one at a time (10_state.md R29, 20_memory.md R46). -/
def fetch (s : State) : Fetched :=
  match s.host with
  | [] => .idle
  | .reset port :: rest => .reset port { s with host := rest }
  | .command port w draw :: rest => .command w (s.accept port w draw rest)

/-- `Execute(w)` (60_exceptions.md R152): decode, then the command's meaning, or what an illegal word does. -/
def execWord (w : Word) (s : State) : Host.Outcome State Fault Refusal :=
  match decode w with
  | none => execIllegal s
  | some i => exec i s

/-- The host writes one more command word, before its other events, to the port last addressed (port 0 after reset).
The entropy source's answer is left open (`Config.entropy`). notes/assumptions/3.md. -/
def State.placeWord (s : State) (w : Word) : State :=
  { s with host := .command s.port w (Config.entropy s.trace.length) :: s.host }

end Sys2Proof.Machine
end

