-- ==== Sys2Proof/Machine/Step.lean ====
section
/-! DEFINITION. One step of the block: one host event taken and carried out as one atomic step (00_scope.md R12), or
nothing while the block waits. -/

namespace Sys2Proof.Machine

/-- One step: a next state, a fault, or a refusal. -/
def step (s : State) : Host.Outcome State Fault Refusal :=
  match fetch s with
  | .idle => .next s
  | .reset port s' => resetPort port s'
  | .command w s' => execWord w s'

/-- `s` with the command word `w` (its low `nbits` bits, the rest 0) as the host's next event. A word crosses the port
whole (20_memory.md R41). -/
def State.withFetchWord (s : State) (nbits w : Nat) : State := s.placeWord (BitVec.ofNat 32 (w % 2 ^ nbits))

end Sys2Proof.Machine
end

