-- ==== Sys2Proof/WellFormed.lean ====
section
/-! DEFINITION. A command as written in assembly (30_encoding.md R68, R69), its operand a number of any size, and the
check that the assembler makes before it gives a word. An `Instr` needs no check: its fields have the encoding's widths. -/

namespace Sys2Proof

/-- One command of the assembly syntax of R68, and the pseudo-instruction of R69. -/
inductive AsmLine where
  | select
  | seed
  | step
  | ldtaps (t : Nat)
  | ldreg (r : Nat)
  | readTaps
  | readDeg
  | readReg
  | readFault
  | readPoolcount
  | readPool (i : Nat)
  /-- `LDPOLY p`, the pseudo-instruction (R69). -/
  | ldpoly (p : Nat)
  deriving DecidableEq, Repr

/-- R68: an operand is below `2^24`. R69: a polynomial has bit 0 set and `3 <= p < 2^25`. An operand in range is not
refused for a fault its command will take (R68). -/
def AsmLine.wf : AsmLine → Bool
  | .select => true
  | .seed => true
  | .step => true
  | .ldtaps t => decide (t < 2 ^ 24)
  | .ldreg r => decide (r < 2 ^ 24)
  | .readTaps => true
  | .readDeg => true
  | .readReg => true
  | .readFault => true
  | .readPoolcount => true
  | .readPool i => decide (i < 2 ^ 24)
  | .ldpoly p => p.testBit 0 && decide (3 ≤ p) && decide (p < 2 ^ 25)

end Sys2Proof
end

