-- ==== Sys2Proof/Machine/Assembler.lean ====
section
/-! DEFINITION. The assembler: a written command to its word, and a line of text to a written command (30_encoding.md
R68, R69). Text is a list of characters. What R68 leaves open about blanks, letter case outside mnemonics and leading zeros
is fixed here (DESIGN CHOICE, safe: notes/assumptions/11.md). -/

namespace Sys2Proof.Machine

/-- The command a written line stands for; `LDPOLY p` stands for `LDTAPS (p >> 1)` (R68, R69). -/
def asmInstr : AsmLine → Instr
  | .select => .select
  | .seed => .seed
  | .step => .step
  | .ldtaps t => .ldtaps (BitVec.ofNat 24 t)
  | .ldreg r => .ldreg (BitVec.ofNat 24 r)
  | .readTaps => .readTaps
  | .readDeg => .readDeg
  | .readReg => .readReg
  | .readFault => .readFault
  | .readPoolcount => .readPoolcount
  | .readPool i => .readPool (BitVec.ofNat 24 i)
  | .ldpoly p => .ldtaps (BitVec.ofNat 24 (p >>> 1))

/-- The word of a written command, or none when an operand is outside its range (R68, R69). -/
def assemble (l : AsmLine) : Option Word := if l.wf then some (encode (asmInstr l)) else none

/-- The value of a hexadecimal digit in upper case. -/
def hexDigit (c : Char) : Option Nat :=
  if '0' ≤ c ∧ c ≤ '9' then some (c.toNat - '0'.toNat)
  else if 'A' ≤ c ∧ c ≤ 'F' then some (c.toNat - 'A'.toNat + 10)
  else none

/-- The number written by digits of a base after the digits read so far. -/
def digitsValue (base acc : Nat) : List Char → Option Nat
  | [] => some acc
  | c :: cs =>
    match hexDigit c with
    | none => none
    | some v => if v < base then digitsValue base (acc * base + v) cs else none

/-- A number, decimal or `0x` hexadecimal (R68), in upper case; at least one digit, and leading zeros do not matter
(DESIGN CHOICE, safe: notes/assumptions/11.md). -/
def numberValue : List Char → Option Nat
  | [] => none
  | ['0', 'X'] => none
  | '0' :: 'X' :: c :: cs => digitsValue 16 0 (c :: cs)
  | cs => digitsValue 10 0 cs

/-- A line up to its comment, in upper case: `;` to end of line is a comment, mnemonics are case-insensitive (R68). R68 is
silent on the case of everything else; here it does not matter either, so the register names of READ, hexadecimal digits and
the prefix `0X` are accepted in both cases (DESIGN CHOICE, safe: notes/assumptions/11.md). -/
def codePart : List Char → List Char
  | [] => []
  | c :: cs => if c = ';' then [] else c.toUpper :: codePart cs

/-- Puts a character in front of the first of the words of a line; a blank ends a word and a comma is a word of its own
(DESIGN CHOICE, safe: notes/assumptions/11.md). -/
def addChar (c : Char) (words : List (List Char)) : List (List Char) :=
  if c = ' ' ∨ c = '\t' then [] :: words
  else if c = ',' then [] :: [','] :: words
  else
    match words with
    | [] => [[c]]
    | w :: ws => (c :: w) :: ws

/-- The words of a line. -/
def lineWords (cs : List Char) : List (List Char) :=
  ((codePart cs).foldr addChar [[]]).filter (fun w => !w.isEmpty)

/-- What the words of a line say: `none` refuses the line, `some none` is a line with no command on it (R68, R69). -/
def parseWords : List (List Char) → Option (Option AsmLine)
  | [] => some none
  | [['S', 'E', 'L', 'E', 'C', 'T']] => some (some .select)
  | [['S', 'E', 'E', 'D']] => some (some .seed)
  | [['S', 'T', 'E', 'P']] => some (some .step)
  | [['L', 'D', 'T', 'A', 'P', 'S'], n] => (numberValue n).map (fun v => some (.ldtaps v))
  | [['L', 'D', 'R', 'E', 'G'], n] => (numberValue n).map (fun v => some (.ldreg v))
  | [['L', 'D', 'P', 'O', 'L', 'Y'], n] => (numberValue n).map (fun v => some (.ldpoly v))
  | [['R', 'E', 'A', 'D'], ['T', 'A', 'P', 'S']] => some (some .readTaps)
  | [['R', 'E', 'A', 'D'], ['D', 'E', 'G']] => some (some .readDeg)
  | [['R', 'E', 'A', 'D'], ['R', 'E', 'G']] => some (some .readReg)
  | [['R', 'E', 'A', 'D'], ['F', 'A', 'U', 'L', 'T']] => some (some .readFault)
  | [['R', 'E', 'A', 'D'], ['P', 'O', 'O', 'L', 'C', 'O', 'U', 'N', 'T']] => some (some .readPoolcount)
  | [['R', 'E', 'A', 'D'], ['P', 'O', 'O', 'L'], [','], n] => (numberValue n).map (fun v => some (.readPool v))
  | _ => none

/-- A line of text to the written command on it. -/
def parseLine (cs : List Char) : Option (Option AsmLine) := parseWords (lineWords cs)

/-- A line of text to its word: `none` refuses the line, `some none` is a line with no command (R68, R69). -/
def assembleLine (cs : List Char) : Option (Option Word) :=
  match parseLine cs with
  | none => none
  | some none => some none
  | some (some l) => (assemble l).map some

end Sys2Proof.Machine
end

