-- ==== Sys2Proof/Machine/Run.lean ====
section
/-! DEFINITION. The run of an instance, its end, and what is observed there (70_reset_and_hazards.md R188,
92_eei_decisions.md D30). -/

namespace Sys2Proof.Machine

/-- One command of a run: the word the host issued, the draw it took, the response returned (R188). -/
structure Exchange where
  command : Word
  draw : Option Nat
  response : Word
  deriving DecidableEq, Repr

/-- What is observed at the end of a run (R188). -/
structure Observation where
  taps : Word24
  reg : Word24
  fault : Code
  responses : List Word
  deriving DecidableEq, Repr

/-- The draw a command took: the index of a SELECT that completed (40_polynomial_cache.md R92), the seed of a SEED that
completed, which it answers (41_lfsr_engine.md R118, 30_encoding.md R66). A command that faulted or was refused, `ERR` set
in its response, took none, and no other command takes any (R119). -/
def drawTaken (pool : List Poly) (command : Word) (draw : Nat) (response : Word) : Option Nat :=
  if response.getLsbD 31 then none
  else if decode command = some .select then some (drawIndex draw pool.length)
  else if decode command = some .seed then some response.toNat
  else none

/-- The run of instance `k` after one more entry of the trace: its reset starts an empty run, its command is added, and
what the host does to another instance is no part of it (R188). -/
def extendRun (pool : List Poly) (k : Nat) (run : List Exchange) : TraceEntry → List Exchange
  | .exchange port command draw response =>
    if port = k then run ++ [⟨command, drawTaken pool command draw response, response⟩] else run
  | .reset port => if port = k then [] else run

/-- The run of instance `k` so far: its commands since its last reset, with the draws taken and the responses returned,
oldest first (R188). A block that has just been built counts as reset (R180). -/
def State.runOf (s : State) (k : Nat) : List Exchange := s.trace.foldl (extendRun s.pool k) []

/-- The observation of instance `k`: its registers, and the responses of its run (R188); none where there is no such
instance. -/
def State.observe (s : State) (k : Nat) : Option Observation :=
  match s.insts[k]? with
  | none => none
  | some r => some ⟨r.taps, r.reg, r.fault, (s.runOf k).map Exchange.response⟩

/-- The event is for instance `k`. -/
def HostEvent.isFor (k : Nat) : HostEvent → Bool
  | .command port _ _ => port == k
  | .reset port => port == k

/-- The run of instance `k` has ended: the host issues no further command to it, nor a reset, which would start another
run (R188). -/
def State.runEnded (s : State) (k : Nat) : Bool := !s.host.any (HostEvent.isFor k)

/-- The run of instance `k` has ended in a fault: in its last state `FAULT` is not 0 (R188). -/
def State.endedInFault (s : State) (k : Nat) : Bool :=
  s.runEnded k &&
    match s.insts[k]? with
    | none => false
    | some r => decide (r.fault ≠ 0#4)

/-- The responses instance `k` gave, in this run and before its last reset. -/
def State.responsesOf (s : State) (k : Nat) : List Response := s.responses.filter (fun x => x.port == k)

/-- `n` steps of the block, up to the first fault or refusal. -/
def runFor : Nat → State → Host.Outcome State Fault Refusal
  | 0, s => .next s
  | n + 1, s =>
    match step s with
    | .next t => runFor n t
    | .fault r => .fault r
    | .refused r => .refused r

/-- The block takes every event the host has to give, for all its instances, in order. After it the run of every
instance has ended. -/
def runAll (s : State) : Host.Outcome State Fault Refusal := runFor s.host.length s

/-- The observation of instance `k` at the end of its run, when the host has issued its last command (R188). -/
def endObservation (s : State) (k : Nat) : Option Observation :=
  match runAll s with
  | .next t => t.observe k
  | .fault _ => none
  | .refused _ => none

end Sys2Proof.Machine
end

