-- ==== Sys2Proof/Safety.lean ====
section
/-! DEFINITION. What statements are made of: the invariants of 10_state.md R24 and 60_exceptions.md R150, halted
instances, and the events of one instance. -/

namespace Sys2Proof

/-- The registers of an instance in every reachable state: `REG < 2^DEG` (10_state.md R24) and `FAULT` holds no
reserved code (60_exceptions.md R150, 93_implementation_defined.md I7). -/
abbrev Machine.Inst.Legal (r : Machine.Inst) : Prop := r.reg.toNat < 2 ^ Machine.deg r.taps ∧ r.fault.toNat ≤ 8

/-- The invariant of the block: every instance legal, at least one instance (00_scope.md R7), an admissible pool
(40_polynomial_cache.md R88). -/
abbrev Machine.State.Inv (s : Machine.State) : Prop :=
  (∀ r ∈ s.insts, r.Legal) ∧ s.insts ≠ [] ∧ Machine.admissiblePool s.pool = true

/-- `s` after the addressed instance answered the word `w` and was left with the registers `r`. -/
def Machine.State.answered (s : Machine.State) (r : Machine.Inst) (w : Word) : Machine.State :=
  { s with insts := s.insts.set s.port r, trace := s.trace ++ [.exchange s.port s.command s.draw w] }

/-- `s` after the addressed instance answered the word `w` and changed nothing. -/
def Machine.State.replied (s : Machine.State) (w : Word) : Machine.State :=
  { s with trace := s.trace ++ [.exchange s.port s.command s.draw w] }

/-- The host's events for instance `k` alone: a block whose other instances get no event (20_memory.md R47). -/
def Machine.State.onlyFor (s : Machine.State) (k : Nat) : Machine.State :=
  { s with host := s.host.filter (Machine.HostEvent.isFor k) }

/-- A command that is one of the READs (60_exceptions.md R152). -/
def Instr.isRead : Instr → Bool
  | .select => false
  | .seed => false
  | .step => false
  | .ldtaps _ => false
  | .ldreg _ => false
  | .readTaps => true
  | .readDeg => true
  | .readReg => true
  | .readFault => true
  | .readPoolcount => true
  | .readPool _ => true

end Sys2Proof
end

