-- ==== Sys2Proof/Certificates/Slice0/Obligations.lean ====
section
/-! DEFINITION. What is claimed of the model, one Prop per claim; the docstring of each names the rule of spec/ it comes
from. In all of them `s.insts[s.port]? = some r` says that the addressed instance exists and has the registers `r`. -/

open Sys2Proof Sys2Proof.Machine

/-! ### Encoding (30_encoding.md) -/

/-- R63, R67: every command is read back from its word, with every operand at every value. -/
def Obligations.DecodeOfEncode : Prop := ∀ i : Instr, decode (encode i) = some i

/-- R63, R64: a word has one meaning, and it is the word of that meaning: no bit of a legal word is ignored. -/
def Obligations.EncodeOfDecode : Prop := ∀ (w : Word) (i : Instr), decode w = some i → encode i = w

/-- R64, whole: which words are illegal (fields taken by division), that the all-zero word is, that every word is of
exactly one row of R63 or illegal, and that executing an illegal word raises ILLEGAL_COMMAND and changes nothing else. -/
def Obligations.IllegalWords : Prop :=
  (∀ w : Word,
    decode w = none ↔
      (w.toNat / 2 ^ 28 = 0 ∨ 7 ≤ w.toNat / 2 ^ 28) ∨
      (1 ≤ w.toNat / 2 ^ 28 ∧ w.toNat / 2 ^ 28 ≤ 5 ∧ w.toNat / 2 ^ 24 % 16 ≠ 0) ∨
      (1 ≤ w.toNat / 2 ^ 28 ∧ w.toNat / 2 ^ 28 ≤ 3 ∧ w.toNat % 2 ^ 24 ≠ 0) ∨
      (w.toNat / 2 ^ 28 = 6 ∧ 6 ≤ w.toNat / 2 ^ 24 % 16) ∨
      (w.toNat / 2 ^ 28 = 6 ∧ w.toNat / 2 ^ 24 % 16 ≤ 4 ∧ w.toNat % 2 ^ 24 ≠ 0)) ∧
  decode 0x00000000#32 = none ∧
  (∀ w : Word,
    (decode w = none ∧ patternsOf w = []) ∨ ((decode w).isSome ∧ (patternsOf w).length = 1)) ∧
  (∀ (s : State) (r : Inst) (p d : Nat) (w : Word) (rest : List HostEvent),
    s.host = .command p w d :: rest → s.insts[p]? = some r → r.fault = 0#4 → decode w = none →
    step s = .next ((s.accept p w d rest).answered { r with fault := 1#4 } 0x80000001#32))

/-- R70: the encoding examples. -/
def Obligations.EncodingExamples : Prop :=
  assemble (.ldpoly 0x100005) = assemble (.ldtaps 0x080002) ∧
  assemble (.ldpoly 0x100005) = some 0x40080002#32 ∧
  assemble (.ldreg 1) = some 0x50000001#32 ∧
  assemble (.readPool 3) = some 0x65000003#32 ∧
  decode 0x30000001#32 = none ∧ decode 0x00000000#32 = none ∧
  decode 0x61000000#32 = some .readDeg

/-- R62, R63: one word of each row, as the encoding writes it bit by bit, is read as the row's command. -/
def Obligations.RowWordsDecode : Prop :=
  decode 0b00010000000000000000000000000000#32 = some .select ∧
  decode 0b00100000000000000000000000000000#32 = some .seed ∧
  decode 0b00110000000000000000000000000000#32 = some .step ∧
  decode 0b01000000100000000000000000000001#32 = some (.ldtaps 0x800001) ∧
  decode 0b01010000000100100011010001010110#32 = some (.ldreg 0x123456) ∧
  decode 0b01100000000000000000000000000000#32 = some .readTaps ∧
  decode 0b01100001000000000000000000000000#32 = some .readDeg ∧
  decode 0b01100010000000000000000000000000#32 = some .readReg ∧
  decode 0b01100011000000000000000000000000#32 = some .readFault ∧
  decode 0b01100100000000000000000000000000#32 = some .readPoolcount ∧
  decode 0b01100101111111111111111111111111#32 = some (.readPool 0xFFFFFF)

/-- R68: the words of the assembly syntax, and the refusal of an operand outside its range. -/
def Obligations.AssemblerWords : Prop :=
  assemble .select = some 0x10000000#32 ∧ assemble .seed = some 0x20000000#32 ∧
  assemble .step = some 0x30000000#32 ∧ assemble .readTaps = some 0x60000000#32 ∧
  assemble .readDeg = some 0x61000000#32 ∧ assemble .readReg = some 0x62000000#32 ∧
  assemble .readFault = some 0x63000000#32 ∧ assemble .readPoolcount = some 0x64000000#32 ∧
  (∀ n, n < 2 ^ 24 →
    assemble (.ldtaps n) = some (BitVec.ofNat 32 (0x40000000 + n)) ∧
    assemble (.ldreg n) = some (BitVec.ofNat 32 (0x50000000 + n)) ∧
    assemble (.readPool n) = some (BitVec.ofNat 32 (0x65000000 + n))) ∧
  (∀ n, 2 ^ 24 ≤ n → assemble (.ldtaps n) = none ∧ assemble (.ldreg n) = none ∧ assemble (.readPool n) = none)

/-- R69: `LDPOLY p` is `LDTAPS (p >> 1)` for odd `p` with `3 <= p < 2^25`, and then `(TAPS << 1) | 1` is `p` again;
every other `p` is refused. -/
def Obligations.PseudoInstruction : Prop :=
  ∀ p : Nat,
    (p % 2 = 1 ∧ 3 ≤ p ∧ p < 2 ^ 25 →
      assemble (.ldpoly p) = assemble (.ldtaps (p >>> 1)) ∧
      assemble (.ldpoly p) = some (BitVec.ofNat 32 (0x40000000 + p / 2)) ∧
      (p >>> 1) <<< 1 ||| 1 = p) ∧
    (p % 2 = 0 ∨ p < 3 ∨ 2 ^ 25 ≤ p → assemble (.ldpoly p) = none)

/-! ### The step of the machine, reset, and the halted state -/

/-- R60, R152: a step takes the host's oldest event; a command word is accepted and, if it decodes, the step is `exec` of
its command; if not, it is what an illegal word does; with no event the block waits. -/
def Obligations.StepRunsDecodedCommand : Prop :=
  (∀ (s : State) (p d : Nat) (w : Word) (rest : List HostEvent) (i : Instr),
    s.host = .command p w d :: rest → decode w = some i →
    step s = exec i { s with host := rest, port := p, command := w, draw := d }) ∧
  (∀ (s : State) (p d : Nat) (w : Word) (rest : List HostEvent),
    s.host = .command p w d :: rest → decode w = none →
    step s = execIllegal { s with host := rest, port := p, command := w, draw := d }) ∧
  (∀ s : State, s.host = [] → step s = .next s)

/-- R160: instances are numbered `0 .. N - 1`. The model's choice (notes/assumptions/7.md): a command or a reset for any
other port stops the model by name. -/
def Obligations.MissingPortStops : Prop :=
  (∀ (i : Instr) (s : State), s.insts.length ≤ s.port → exec i s = .fault (.noSuchInstance s.port)) ∧
  (∀ (s : State) (p : Nat) (rest : List HostEvent), s.host = .reset p :: rest → s.insts.length ≤ p →
    step s = .fault (.noSuchInstance p))

/-- R180: the reset event. -/
def Obligations.ResetEventClearsInstance : Prop :=
  ∀ (s : State) (p : Nat) (rest : List HostEvent), s.host = .reset p :: rest → p < s.insts.length →
    ∃ t, step s = .next t ∧ t.insts[p]? = some ⟨0#24, 0#24, 0#4⟩ ∧ deg 0#24 = 0 ∧
      (∀ q, q ≠ p → t.insts[q]? = s.insts[q]?) ∧ t.pool = s.pool ∧ t.responses = s.responses ∧ t.host = rest

/-- R32, R180, R181: after reset every instance is not configured, not seeded and not halted; the block waits. -/
def Obligations.ResetStateValues : Prop :=
  (∀ k, k < Config.nInstances → State.reset.insts[k]? = some ⟨0#24, 0#24, 0#4⟩) ∧ 1 ≤ Config.nInstances ∧
  State.reset.insts.length = Config.nInstances ∧ State.reset.pool.length = 0 ∧
  State.reset.host = [] ∧ State.reset.trace = []

/-- R24: the invariant holds at reset, for the normative pool, and for every admissible pool and number of instances. -/
def Obligations.ResetIsLegal : Prop :=
  State.reset.Inv ∧ ∀ (pool : List Poly) (n : Nat), admissiblePool pool = true → 1 ≤ n → (State.powerUp pool n).Inv

/-- R24, R150 (codes 9 to 15 are never raised), R26: every step keeps the invariant. -/
def Obligations.StepKeepsInvariant : Prop := ∀ s t : State, s.Inv → step s = .next t → t.Inv

/-- R26, R50: no step changes the cache or the number of instances. -/
def Obligations.CacheNeverChanges : Prop :=
  ∀ s t : State, step s = .next t → t.pool = s.pool ∧ t.insts.length = s.insts.length

/-- R25, R152: a halted instance refuses every command but READ, and every illegal word: the answer is
`0x80000000 | FAULT` and no register changes. -/
def Obligations.HaltedInstanceRefuses : Prop :=
  (∀ (i : Instr) (s : State) (r : Inst), s.insts[s.port]? = some r → r.fault ≠ 0#4 → i.isRead = false →
    exec i s = .next (s.replied (BitVec.ofNat 32 (2 ^ 31 + r.fault.toNat)))) ∧
  (∀ (s : State) (r : Inst) (p d : Nat) (w : Word) (rest : List HostEvent),
    s.host = .command p w d :: rest → s.insts[p]? = some r → r.fault ≠ 0#4 → decode w = none →
    step s = .next ((s.accept p w d rest).replied (BitVec.ofNat 32 (2 ^ 31 + r.fault.toNat))))

/-- R25, R152, R154: in a step, a halted instance keeps all its registers, unless the event is its own reset. -/
def Obligations.OnlyResetLeavesHalted : Prop :=
  ∀ (s t : State) (k : Nat) (r : Inst), step s = .next t → s.insts[k]? = some r → r.fault ≠ 0#4 →
    s.host.head? ≠ some (.reset k) → t.insts[k]? = some r

/-- R150, R153: the code a command leaves in the `FAULT` of an instance that was not halted, for every command: 0 when
the command completes, otherwise the first of its checks that fails. -/
def Obligations.FaultCodeOfEachCommand : Prop :=
  ∀ (i : Instr) (s : State) (r : Inst), s.insts[s.port]? = some r → r.fault = 0#4 →
    ∃ t r', exec i s = .next t ∧ t.insts[s.port]? = some r' ∧
      r'.fault =
        match i with
        | .select => if s.pool = [] then 7#4 else 0#4
        | .seed => if r.taps = 0#24 then 2#4 else 0#4
        | .step => if r.taps = 0#24 then 2#4 else if r.reg = 0#24 then 3#4 else 0#4
        | .ldtaps imm => if imm = 0#24 then 4#4 else 0#4
        | .ldreg imm =>
          if r.taps = 0#24 then 2#4 else if imm = 0#24 then 5#4 else if 2 ^ deg r.taps ≤ imm.toNat then 6#4 else 0#4
        | .readTaps => 0#4
        | .readDeg => 0#4
        | .readReg => 0#4
        | .readFault => 0#4
        | .readPoolcount => 0#4
        | .readPool imm => if s.pool.length ≤ imm.toNat then 8#4 else 0#4

/-- R12, R66, R151: an answer with `ERR` set leaves `TAPS` and `REG` as they were, records a code of 1 to 8 only where
`FAULT` was 0, and carries the code then in `FAULT`. -/
def Obligations.FaultsArePrecise : Prop :=
  ∀ (i : Instr) (s t : State) (r : Inst) (w : Word), s.insts[s.port]? = some r → exec i s = .next t →
    t.responses = s.responses ++ [⟨s.port, w⟩] → 2 ^ 31 ≤ w.toNat →
    ∃ c : Code, c ≠ 0#4 ∧ t = s.answered { r with fault := c } (BitVec.ofNat 32 (2 ^ 31 + c.toNat)) ∧
      (r.fault ≠ 0#4 → c = r.fault) ∧ (r.fault = 0#4 → c.toNat ≤ 8)

/-! ### Frames -/

/-- R12, R20, R60, R160: the frame of every command. It may write the registers of the addressed instance, and sends one
response on its port, which the trace records; every other instance, the cache (the block's only memory), the host's
events, the port, the command word and the draw are unchanged. -/
def Obligations.CommandFrame : Prop :=
  ∀ (i : Instr) (s t : State), exec i s = .next t →
    (∀ k, k ≠ s.port → t.insts[k]? = s.insts[k]?) ∧ t.insts.length = s.insts.length ∧ t.pool = s.pool ∧
    t.host = s.host ∧ t.port = s.port ∧ t.command = s.command ∧ t.draw = s.draw ∧
    ∃ w, t.trace = s.trace ++ [.exchange s.port s.command s.draw w] ∧ t.responses = s.responses ++ [⟨s.port, w⟩]

/-- R21, R23, R25: which registers of the addressed instance each command leaves alone: `TAPS` by all but SELECT and
LDTAPS; `REG` by LDTAPS's and SELECT's clearing, SEED, LDREG and STEP only; `FAULT` once it is not 0. -/
def Obligations.RegisterFrame : Prop :=
  ∀ (i : Instr) (s t : State) (r r' : Inst), exec i s = .next t → s.insts[s.port]? = some r →
    t.insts[s.port]? = some r' →
    (i ≠ .select → (∀ imm, i ≠ .ldtaps imm) → r'.taps = r.taps) ∧
    (i.isRead = true → r'.reg = r.reg) ∧
    (r.fault ≠ 0#4 → r' = r)

/-- R43, R140: a READ that completes changes no register and no cache entry, and asked again gives the same answer. -/
def Obligations.ReadsAreIdempotent : Prop :=
  ∀ (i : Instr) (s t : State) (w : Word), i.isRead = true → exec i s = .next t →
    t.responses = s.responses ++ [⟨s.port, w⟩] → w.toNat < 2 ^ 31 →
    t = s.replied w ∧ exec i t = .next (t.replied w)

/-! ### SELECT -/

/-- R92, R27: with an admissible pool that is not empty SELECT completes: `TAPS` is `P >> 1` for an entry `P` of degree
18 to 24, `REG` is 0, and the answer is `(deg(P) << 24) | (P >> 1)`. -/
def Obligations.SelectConfigures : Prop :=
  ∀ (s : State) (r : Inst), s.insts[s.port]? = some r → r.fault = 0#4 → admissiblePool s.pool = true → s.pool ≠ [] →
    ∃ P ∈ s.pool, ∃ d, 18 ≤ d ∧ d ≤ 24 ∧ 2 ^ d ≤ P.toNat ∧ P.toNat < 2 ^ (d + 1) ∧
      exec .select s = .next (s.answered { r with taps := BitVec.ofNat 24 (P.toNat / 2), reg := 0#24 }
        (BitVec.ofNat 32 (d * 2 ^ 24 + P.toNat / 2)))

/-- R93: SELECT may take every index of the pool: for each there is a draw that gives its entry. The entry `P` has degree
`d`. -/
def Obligations.SelectAdmitsEveryIndex : Prop :=
  ∀ (s : State) (r : Inst) (i d : Nat) (P : Poly), s.insts[s.port]? = some r → r.fault = 0#4 → s.pool[i]? = some P →
    2 ^ d ≤ P.toNat → P.toNat < 2 ^ (d + 1) →
    ∃ draw, exec .select { s with draw := draw } =
      .next (({ s with draw := draw } : State).answered { r with taps := BitVec.ofNat 24 (P.toNat / 2), reg := 0#24 }
        (BitVec.ofNat 32 (d * 2 ^ 24 + P.toNat / 2)))

/-- R92, R150: with an empty pool SELECT raises POOL_EMPTY, whatever the draw. -/
def Obligations.SelectFaultsOnEmptyPool : Prop :=
  ∀ (s : State) (r : Inst), s.insts[s.port]? = some r → r.fault = 0#4 → s.pool = [] →
    exec .select s = .next (s.answered { r with fault := 7#4 } 0x80000007#32)

/-- R21, R27, R92: the tap mask of an admissible entry `P` has exactly 3 set bits, `(TAPS << 1) | 1` is `P`, and `DEG` is
the degree of `P`. -/
def Obligations.AdmissibleTapMask : Prop :=
  ∀ P : Poly, admissibleEntry P = true →
    popcount (tapsOf P) = 3 ∧ (tapsOf P).toNat <<< 1 ||| 1 = P.toNat ∧ deg (tapsOf P) = polyDeg P ∧
    18 ≤ deg (tapsOf P) ∧ deg (tapsOf P) ≤ 24

/-! ### The engine's commands -/

/-- R110, R115: STEP of a configured, seeded instance that is not halted, for a tap mask of degree `d + 1`. -/
def Obligations.StepAdvancesRegister : Prop :=
  ∀ (s : State) (r : Inst) (d : Nat), s.insts[s.port]? = some r → r.fault = 0#4 →
    2 ^ d ≤ r.taps.toNat → r.taps.toNat < 2 ^ (d + 1) → r.reg ≠ 0#24 →
    exec .step s = .next (s.answered
      { r with reg := BitVec.ofNat 24 ((2 * r.reg.toNat + popcount (r.reg &&& r.taps) % 2) % 2 ^ (d + 1)) }
      (BitVec.ofNat 32 (popcount (r.reg &&& r.taps) % 2 * 2 ^ 24 +
        (2 * r.reg.toNat + popcount (r.reg &&& r.taps) % 2) % 2 ^ (d + 1))))

/-- R115, R153: STEP raises NOT_CONFIGURED, and only when configured UNSEEDED. -/
def Obligations.StepFaults : Prop :=
  ∀ (s : State) (r : Inst), s.insts[s.port]? = some r → r.fault = 0#4 →
    (r.taps = 0#24 → exec .step s = .next (s.answered { r with fault := 2#4 } 0x80000002#32)) ∧
    (r.taps ≠ 0#24 → r.reg = 0#24 → exec .step s = .next (s.answered { r with fault := 3#4 } 0x80000003#32))

/-- R116: LDTAPS of a mask whose highest set bit is bit `d`. -/
def Obligations.LdtapsLoadsMask : Prop :=
  ∀ (s : State) (r : Inst) (imm : Word24) (d : Nat), s.insts[s.port]? = some r → r.fault = 0#4 →
    2 ^ d ≤ imm.toNat → imm.toNat < 2 ^ (d + 1) →
    exec (.ldtaps imm) s = .next (s.answered { r with taps := imm, reg := 0#24 }
      (BitVec.ofNat 32 ((d + 1) * 2 ^ 24 + imm.toNat)))

/-- R116: LDTAPS 0 raises ZERO_TAPS. -/
def Obligations.LdtapsZeroFaults : Prop :=
  ∀ (s : State) (r : Inst), s.insts[s.port]? = some r → r.fault = 0#4 →
    exec (.ldtaps 0#24) s = .next (s.answered { r with fault := 4#4 } 0x80000004#32)

/-- R117: LDREG of a value in `[1, 2^DEG - 1]`, for a tap mask of degree `d + 1`. -/
def Obligations.LdregLoadsValue : Prop :=
  ∀ (s : State) (r : Inst) (imm : Word24) (d : Nat), s.insts[s.port]? = some r → r.fault = 0#4 →
    2 ^ d ≤ r.taps.toNat → r.taps.toNat < 2 ^ (d + 1) → imm ≠ 0#24 → imm.toNat < 2 ^ (d + 1) →
    exec (.ldreg imm) s = .next (s.answered { r with reg := imm } (BitVec.ofNat 32 imm.toNat))

/-- R117, R153: LDREG raises NOT_CONFIGURED, then ZERO_SEED, then SEED_RANGE. -/
def Obligations.LdregFaults : Prop :=
  ∀ (s : State) (r : Inst) (imm : Word24), s.insts[s.port]? = some r → r.fault = 0#4 →
    (r.taps = 0#24 → exec (.ldreg imm) s = .next (s.answered { r with fault := 2#4 } 0x80000002#32)) ∧
    (r.taps ≠ 0#24 → imm = 0#24 → exec (.ldreg imm) s = .next (s.answered { r with fault := 5#4 } 0x80000005#32)) ∧
    (∀ d, 2 ^ d ≤ r.taps.toNat → r.taps.toNat < 2 ^ (d + 1) → 2 ^ (d + 1) ≤ imm.toNat →
      exec (.ldreg imm) s = .next (s.answered { r with fault := 6#4 } 0x80000006#32))

/-- R118: SEED of a configured instance completes with some value of `[1, 2^DEG - 1]`, whatever the draw, and answers it;
every value of the range is the result for some draw. -/
def Obligations.SeedLoadsDrawnValue : Prop :=
  ∀ (s : State) (r : Inst) (d : Nat), s.insts[s.port]? = some r → r.fault = 0#4 →
    2 ^ d ≤ r.taps.toNat → r.taps.toNat < 2 ^ (d + 1) →
    (∃ v : Word24, 1 ≤ v.toNat ∧ v.toNat < 2 ^ (d + 1) ∧
      exec .seed s = .next (s.answered { r with reg := v } (BitVec.ofNat 32 v.toNat))) ∧
    (∀ v : Word24, 1 ≤ v.toNat → v.toNat < 2 ^ (d + 1) → ∃ draw,
      exec .seed { s with draw := draw } =
        .next (({ s with draw := draw } : State).answered { r with reg := v } (BitVec.ofNat 32 v.toNat)))

/-- R118: SEED of an instance that is not configured raises NOT_CONFIGURED. -/
def Obligations.SeedFaultsUnconfigured : Prop :=
  ∀ (s : State) (r : Inst), s.insts[s.port]? = some r → r.fault = 0#4 → r.taps = 0#24 →
    exec .seed s = .next (s.answered { r with fault := 2#4 } 0x80000002#32)

/-- R185: SELECT and LDTAPS clear `REG`, so a STEP before a reseed raises UNSEEDED, and the instance is halted. -/
def Obligations.ReconfigurationUnseeds : Prop :=
  ∀ (i : Instr) (s t : State) (r r' : Inst), (i = .select ∨ ∃ imm, i = .ldtaps imm) →
    s.insts[s.port]? = some r → r.fault = 0#4 → (i = .select → admissiblePool s.pool = true) →
    exec i s = .next t → t.insts[s.port]? = some r' → r'.fault = 0#4 →
    r'.reg = 0#24 ∧ exec .step t = .next (t.answered { r' with fault := 3#4 } 0x80000003#32)

/-- R119: STEP's new register and answer depend on `TAPS` and `REG` only; of the commands only SELECT and SEED depend on
the draw. -/
def Obligations.StepIsDeterministic : Prop :=
  (∀ (s s' : State) (r r' : Inst), s.insts[s.port]? = some r → s'.insts[s'.port]? = some r' →
    r.fault = 0#4 → r'.fault = 0#4 → r.taps = r'.taps → r.reg = r'.reg →
    ∃ q w, exec .step s = .next (s.answered q w) ∧ exec .step s' = .next (s'.answered q w)) ∧
  (∀ (i : Instr) (s : State) (r : Inst) (draw : Nat), i ≠ .select → i ≠ .seed → s.insts[s.port]? = some r →
    ∃ q w, exec i s = .next (s.answered q w) ∧
      exec i { s with draw := draw } = .next (({ s with draw := draw } : State).answered q w))

/-- R30, R112: after a STEP that completes, bit 0 of the answer to READ REG is the output bit of the STEP's answer. -/
def Obligations.ReadRegRecoversOutput : Prop :=
  ∀ (s : State) (r : Inst), s.insts[s.port]? = some r → r.fault = 0#4 → r.taps ≠ 0#24 → r.reg ≠ 0#24 →
    ∃ q w v, exec .step s = .next (s.answered q w) ∧
      exec .readReg (s.answered q w) = .next ((s.answered q w).replied v) ∧ v.getLsbD 0 = w.getLsbD 24

/-! ### READ -/

/-- R140: READ TAPS, DEG, REG, FAULT and POOLCOUNT, of a halted instance too. -/
def Obligations.ReadAnswersRegister : Prop :=
  ∀ (s : State) (r : Inst), s.insts[s.port]? = some r →
    exec .readTaps s = .next (s.replied (BitVec.ofNat 32 r.taps.toNat)) ∧
    (r.taps = 0#24 → exec .readDeg s = .next (s.replied 0#32)) ∧
    (∀ d, 2 ^ d ≤ r.taps.toNat → r.taps.toNat < 2 ^ (d + 1) →
      exec .readDeg s = .next (s.replied (BitVec.ofNat 32 (d + 1)))) ∧
    exec .readReg s = .next (s.replied (BitVec.ofNat 32 r.reg.toNat)) ∧
    exec .readFault s = .next (s.replied (BitVec.ofNat 32 r.fault.toNat)) ∧
    (s.pool.length ≤ 2 ^ 24 → exec .readPoolcount s = .next (s.replied (BitVec.ofNat 32 s.pool.length)))

/-- R140: READ POOL of an index that the cache has, of a halted instance too. -/
def Obligations.ReadPoolAnswersEntry : Prop :=
  ∀ (s : State) (r : Inst) (imm : Word24) (P : Poly), s.insts[s.port]? = some r → s.pool[imm.toNat]? = some P →
    exec (.readPool imm) s = .next (s.replied (BitVec.ofNat 32 P.toNat))

/-- R140, R151, R154: READ POOL past the end raises POOL_INDEX; a halted instance keeps its first code and answers it. -/
def Obligations.ReadPoolPastEnd : Prop :=
  ∀ (s : State) (r : Inst) (imm : Word24), s.insts[s.port]? = some r → s.pool.length ≤ imm.toNat →
    (r.fault = 0#4 → exec (.readPool imm) s = .next (s.answered { r with fault := 8#4 } 0x80000008#32)) ∧
    (r.fault ≠ 0#4 → exec (.readPool imm) s = .next (s.replied (BitVec.ofNat 32 (2 ^ 31 + r.fault.toNat))))

/-! ### Several instances -/

/-- R20, R119, R160: what a command does is decided by the addressed instance's registers, the cache and the draw: no
other instance, port number or history can be learned from it. -/
def Obligations.CommandSeesItsInstanceOnly : Prop :=
  ∀ (i : Instr) (s s' : State) (r : Inst), s.insts[s.port]? = some r → s'.insts[s'.port]? = some r →
    s.pool = s'.pool → s.draw = s'.draw →
    ∃ q w, exec i s = .next (s.answered q w) ∧ exec i s' = .next (s'.answered q w)

/-- R47: whatever the other instances are asked to do in between, an instance ends with the registers and the answers it
would have if only its own events, with their draws, had come. -/
def Obligations.InterleavingIsInvisible : Prop :=
  ∀ (s t : State) (k : Nat), runAll s = .next t →
    ∃ u, runAll (s.onlyFor k) = .next u ∧ u.insts[k]? = t.insts[k]? ∧ u.responsesOf k = t.responsesOf k ∧ u.pool = t.pool

/-! ### The run of an instance, and its end -/

/-- R188: the run of an instance is empty at reset; its reset starts an empty run, at which all it is observed by is 0 and
no response; a command adds the word issued, the draw taken and the response returned; and what the host does to one
instance is no part of another's run or observation. -/
def Obligations.RunIsCutAtReset : Prop :=
  (∀ k, State.reset.runOf k = []) ∧
  (∀ (s t : State) (p : Nat) (rest : List HostEvent), s.host = .reset p :: rest → step s = .next t →
    t.runOf p = [] ∧ t.observe p = some ⟨0#24, 0#24, 0#4, []⟩ ∧
      ∀ k, k ≠ p → t.runOf k = s.runOf k ∧ t.observe k = s.observe k) ∧
  (∀ (s t : State) (p d : Nat) (w : Word) (rest : List HostEvent), s.host = .command p w d :: rest → step s = .next t →
    ∃ a, t.responses = s.responses ++ [⟨p, a⟩] ∧ t.runOf p = s.runOf p ++ [⟨w, drawTaken s.pool w d a, a⟩] ∧
      ∀ k, k ≠ p → t.runOf k = s.runOf k ∧ t.observe k = s.observe k)

/-- R92, R118, R119, R188: the draw a run records is the one its command used: of a SELECT that completed the index of the
entry whose tap mask was loaded, of a SEED that completed the value loaded, in its range; no other command, and none that
faulted or was refused, took a draw. -/
def Obligations.DrawTakenIsDrawUsed : Prop :=
  ∀ (s t : State) (p d : Nat) (w : Word) (rest : List HostEvent) (r r' : Inst) (e : Exchange),
    s.host = .command p w d :: rest → step s = .next t → s.insts[p]? = some r → t.insts[p]? = some r' →
    t.runOf p = s.runOf p ++ [e] →
    (∀ v, e.draw = some v →
      r'.fault = 0#4 ∧
      ((decode w = some .select ∧ ∃ P, s.pool[v]? = some P ∧ r'.taps = BitVec.ofNat 24 (P.toNat / 2)) ∨
       (decode w = some .seed ∧ 1 ≤ v ∧ v < 2 ^ deg r.taps ∧ r'.reg.toNat = v))) ∧
    (e.draw = none → r'.fault ≠ 0#4 ∨ (decode w ≠ some .select ∧ decode w ≠ some .seed))

/-- R188: when the block has taken every event, the run of every instance has ended; the observation at the end is the
instance's `TAPS`, `REG` and `FAULT` with the responses of its run; the run ended in a fault exactly when that `FAULT` is
not 0; and from a state in which an instance's run has ended, no step changes its run or its observation. -/
def Obligations.EndOfRun : Prop :=
  (∀ (s t : State) (k : Nat) (r : Inst), runAll s = .next t → t.insts[k]? = some r →
    t.host = [] ∧ t.runEnded k = true ∧
    endObservation s k = some ⟨r.taps, r.reg, r.fault, (t.runOf k).map Exchange.response⟩ ∧
    (t.endedInFault k = true ↔ r.fault ≠ 0#4)) ∧
  (∀ (s t : State) (k : Nat), s.runEnded k = true → step s = .next t →
    t.runEnded k = true ∧ t.runOf k = s.runOf k ∧ t.observe k = s.observe k)

/-- R47, R180, R188: the run of an instance, and the observation at its end, are decided by the events for that instance
after its last reset: they are those of a block just built with the same cache whose host issues these events only. -/
def Obligations.EndObservationForgetsBeforeReset : Prop :=
  ∀ (s t : State) (k : Nat) (before after : List HostEvent), s.host = before ++ .reset k :: after → runAll s = .next t →
    ∃ u, runAll { State.powerUp s.pool s.insts.length with host := after.filter (HostEvent.isFor k) } = .next u ∧
      u.runOf k = t.runOf k ∧ u.observe k = t.observe k

/-! ### The step function -/

/-- R22: `DEG` of a tap mask. -/
def Obligations.DegreeOfTapMask : Prop :=
  deg 0#24 = 0 ∧
  ∀ t : Word24, deg t ≤ 24 ∧ (t ≠ 0#24 → 1 ≤ deg t ∧ 2 ^ (deg t - 1) ≤ t.toNat ∧ t.toNat < 2 ^ deg t ∧
    t.getLsbD (deg t - 1) = true)

/-- R111, R122: a step moves bit `i` to bit `i + 1` below `DEG`, puts the parity of the tapped bits into bit 0, and
leaves bits `23..DEG` clear. -/
def Obligations.StepShiftsTowardHighBit : Prop :=
  ∀ r t : Word24, t ≠ 0#24 →
    (∀ i, i + 2 ≤ deg t → (stepFn r t).1.getLsbD (i + 1) = r.getLsbD i) ∧
    (stepFn r t).1.getLsbD 0 = decide (popcount (r &&& t) % 2 = 1) ∧
    (∀ i, deg t ≤ i → (stepFn r t).1.getLsbD i = false)

/-- R112: the output bit is the feedback bit, and bit 0 of the new register. -/
def Obligations.OutputIsFeedback : Prop :=
  ∀ r t : Word24, t ≠ 0#24 → (stepFn r t).2 = decide (popcount (r &&& t) % 2 = 1) ∧
    (stepFn r t).1.getLsbD 0 = (stepFn r t).2

/-- R113: for every nonzero tap mask of degree `d` the step is a bijection on `[0, 2^d - 1]` that maps 0 to 0, and a
nonzero register stays nonzero for any number of steps. -/
def Obligations.StepFnIsBijection : Prop :=
  ∀ t : Word24, t ≠ 0#24 →
    (∀ r : Word24, (stepFn r t).1.toNat < 2 ^ deg t) ∧
    (∀ n : Word24, n.toNat < 2 ^ deg t → ∃! r : Word24, r.toNat < 2 ^ deg t ∧ (stepFn r t).1 = n) ∧
    stepFn 0#24 t = (0#24, false) ∧
    (∀ (r : Word24) (k : Nat), r.toNat < 2 ^ deg t → r ≠ 0#24 → (fun x => (stepFn x t).1)^[k] r ≠ 0#24)

/-- R114: the step is linear; under a tap mask with an odd number of set bits the all-ones register is fixed and the
output is 1, and the tap mask of an admissible entry is such a mask. -/
def Obligations.StepFnIsLinear : Prop :=
  (∀ r1 r2 t : Word24, (stepFn (r1 ^^^ r2) t).1 = (stepFn r1 t).1 ^^^ (stepFn r2 t).1) ∧
  (∀ t : Word24, popcount t % 2 = 1 → stepFn (BitVec.ofNat 24 (2 ^ deg t - 1)) t = (BitVec.ofNat 24 (2 ^ deg t - 1), true)) ∧
  (∀ P : Poly, admissibleEntry P = true → popcount (tapsOf P) = 3)

/-- R24, R113: a STEP never leaves `REG` at 0 when it was not. -/
def Obligations.StepNeverUnseeds : Prop :=
  ∀ (s t : State) (r r' : Inst), s.insts[s.port]? = some r → r.reg.toNat < 2 ^ deg r.taps → r.reg ≠ 0#24 →
    exec .step s = .next t → t.insts[s.port]? = some r' → r'.reg ≠ 0#24

/-! ### The search (40_polynomial_cache.md) -/

/-- R80: `GF2Mod` satisfies the equation of its loop; each pass clears bit `msb(a)` and changes no higher bit; the loop is
done after `msb(a) - msb(b) + 1` passes; the result is 0 or of lower degree than the divisor; all is 0 modulo 1. -/
def Obligations.Gf2ModIsTheLoop : Prop :=
  (∀ a b : Nat, 1 ≤ b →
    gf2Mod a b = (if a ≠ 0 ∧ msb b ≤ msb a then gf2Mod (a ^^^ (b <<< (msb a - msb b))) b else a) ∧
    (a ≠ 0 → msb b ≤ msb a → a ^^^ (b <<< (msb a - msb b)) < 2 ^ msb a) ∧
    gf2ModLoop (msb a - msb b + 1) a b = gf2Mod a b ∧
    (gf2Mod a b = 0 ∨ msb (gf2Mod a b) < msb b)) ∧
  (∀ a : Nat, gf2Mod a 1 = 0)

/-- R82: `PassesTrial(P, m)` for odd `m` fails exactly when an odd value from `m` and below `2^(k+1)` divides `P`. -/
def Obligations.TrialDivision : Prop :=
  ∀ P m : Nat, m % 2 = 1 →
    (passesTrial P m = true ↔ ∀ t, t % 2 = 1 → m ≤ t → t < 2 ^ (msb P / 2 + 1) → gf2Mod P t ≠ 0)

/-- R84: the candidates of degree `d`, and how many there are. -/
def Obligations.CandidatesOfDegree : Prop :=
  (∀ d P : Nat, P ∈ candidates d ↔
    ∃ p1 p2, d > p1 ∧ p1 > p2 ∧ p2 ≥ 1 ∧ P = 2 ^ d + 2 ^ p1 + 2 ^ p2 + 1) ∧
  (∀ d : Nat, 1 ≤ d → (candidates d).length = (d - 1) * (d - 2) / 2) ∧
  [18, 19, 20, 21, 22, 23, 24].map (fun d => (candidates d).length) = [136, 153, 171, 190, 210, 231, 253] ∧
  136 + 153 + 171 + 190 + 210 + 231 + 253 = 1344

/-- R85, R87: within a degree the candidates fall (from `p1` and then `p2` high to low), and in a built pool degrees
rise, so no entry stands twice. -/
def Obligations.CandidateOrder : Prop :=
  (∀ d : Nat, (candidates d).Pairwise (fun a b => a > b)) ∧
  (∀ m : Nat, (buildPool m).Pairwise (fun a b => polyDeg a < polyDeg b ∨ (polyDeg a = polyDeg b ∧ a.toNat > b.toNat)))

/-- R27, R87, R90: a pool built with any first trial value is admissible, and holds exactly the candidates of degree 18 to
24 that pass the trial. -/
def Obligations.BuiltPoolIsAdmissible : Prop :=
  ∀ m : Nat, admissiblePool (buildPool m) = true ∧
    ∀ P : Poly, P ∈ buildPool m ↔ (∃ d, 18 ≤ d ∧ d ≤ 24 ∧ P.toNat ∈ candidates d) ∧ passesTrial P.toNat m = true

/-- R89: the remainder by 3 is the parity, every candidate is divisible by 3, so `BuildPool(3)` is empty, and it is the
pool the block is reset with. -/
def Obligations.NormativePoolIsEmpty : Prop :=
  (∀ (w : Nat) (P : BitVec w), gf2Mod P.toNat 3 = popcount P % 2) ∧
  (∀ d P : Nat, 18 ≤ d → P ∈ candidates d → gf2Mod P 3 = 0 ∧ passesTrial P 3 = false) ∧
  buildPool 3 = [] ∧ State.reset.pool = buildPool Config.trialMin
end

