-- ==== Sys2Proof/Laws/Decode.lean ====
section
/-! SUPPORT. The fields of a word of format C (30_encoding.md R60): what each reads, and that they make up the word. -/

namespace Sys2Proof

theorem formatC_toNat (opc sel : BitVec 4) (imm : Word24) :
    (formatC opc sel imm).toNat = opc.toNat * 2 ^ 28 + sel.toNat * 2 ^ 24 + imm.toNat := by
  have h1 := imm.isLt
  have h2 := sel.isLt
  simp only [formatC, BitVec.toNat_append]
  have e1 : sel.toNat <<< 24 ||| imm.toNat = sel.toNat <<< 24 + imm.toNat := (Nat.shiftLeft_add_eq_or_of_lt h1 _).symm
  have e2 : opc.toNat <<< 28 ||| (sel.toNat <<< 24 + imm.toNat) = opc.toNat <<< 28 + (sel.toNat <<< 24 + imm.toNat) :=
    (Nat.shiftLeft_add_eq_or_of_lt (by rw [Nat.shiftLeft_eq]; omega) _).symm
  rw [e1, e2]
  simp only [Nat.shiftLeft_eq]
  omega

theorem opcField_toNat (w : Word) : (opcField w).toNat = w.toNat / 2 ^ 28 := by
  simp only [opcField, BitVec.extractLsb'_toNat, Nat.shiftRight_eq_div_pow]
  have := w.isLt
  omega

theorem selField_toNat (w : Word) : (selField w).toNat = w.toNat / 2 ^ 24 % 16 := by
  simp only [selField, BitVec.extractLsb'_toNat, Nat.shiftRight_eq_div_pow]

theorem immField_toNat (w : Word) : (immField w).toNat = w.toNat % 2 ^ 24 := by
  simp only [immField, BitVec.extractLsb'_toNat, Nat.shiftRight_eq_div_pow, Nat.pow_zero, Nat.div_one]

@[simp] theorem opcField_formatC (opc sel : BitVec 4) (imm : Word24) : opcField (formatC opc sel imm) = opc := by
  apply BitVec.eq_of_toNat_eq
  rw [opcField_toNat, formatC_toNat]
  have := sel.isLt
  have := imm.isLt
  omega

@[simp] theorem selField_formatC (opc sel : BitVec 4) (imm : Word24) : selField (formatC opc sel imm) = sel := by
  apply BitVec.eq_of_toNat_eq
  rw [selField_toNat, formatC_toNat]
  have := sel.isLt
  have := imm.isLt
  omega

@[simp] theorem immField_formatC (opc sel : BitVec 4) (imm : Word24) : immField (formatC opc sel imm) = imm := by
  apply BitVec.eq_of_toNat_eq
  rw [immField_toNat, formatC_toNat]
  have := imm.isLt
  omega

/-- A word is made up of its three fields. -/
theorem formatC_fields (w : Word) : formatC (opcField w) (selField w) (immField w) = w := by
  apply BitVec.eq_of_toNat_eq
  rw [formatC_toNat, opcField_toNat, selField_toNat, immField_toNat]
  have := w.isLt
  omega

/-- Masking works field by field. -/
theorem formatC_and (opc sel opc' sel' : BitVec 4) (imm imm' : Word24) :
    formatC opc sel imm &&& formatC opc' sel' imm' = formatC (opc &&& opc') (sel &&& sel') (imm &&& imm') := by
  unfold formatC
  rw [BitVec.and_append, BitVec.and_append]

end Sys2Proof
end

