-- ==== Sys2Proof/Laws/Operands.lean ====
section
/-! SUPPORT. What the bit functions of Operands.lean and Engine.lean say, bit by bit and as numbers. -/

namespace Sys2Proof.Machine

/-- The tap mask with its constant term restored, as a number: `(TAPS << 1) | 1`. -/
theorem shift_or_one (n : Nat) : n <<< 1 ||| 1 = 2 * n + 1 := by
  rw [Nat.shiftLeft_eq, Nat.pow_one, Nat.mul_comm, ← Nat.two_pow_add_eq_or_of_lt (i := 1) (by decide)]

theorem deg_zero : deg 0#24 = 0 := by decide

/-- `DEG = msb(TAPS) + 1` for a nonzero tap mask (10_state.md R22). -/
theorem deg_eq_msb_succ (t : Word24) (h : t ≠ 0#24) : deg t = msb t.toNat + 1 := by
  have h0 : t.toNat ≠ 0 := fun e => h (BitVec.eq_of_toNat_eq e)
  unfold deg msb
  rw [shift_or_one, Nat.log2_eq_iff (by omega)]
  have h1 := Nat.log2_self_le h0
  have h2 := @Nat.lt_log2_self t.toNat
  rw [Nat.pow_succ, Nat.pow_succ]
  rw [Nat.pow_succ] at h2
  omega

/-- `msb` is the position of the highest set bit (00_scope.md R10). -/
theorem msb_eq_iff {v i : Nat} (h : v ≠ 0) : msb v = i ↔ 2 ^ i ≤ v ∧ v < 2 ^ (i + 1) := Nat.log2_eq_iff h

/-- The degree of a tap mask from its highest set bit. -/
theorem deg_of_bounds {t : Word24} {d : Nat} (h1 : 2 ^ d ≤ t.toNat) (h2 : t.toNat < 2 ^ (d + 1)) : deg t = d + 1 := by
  have h0 : t.toNat ≠ 0 := by have := Nat.two_pow_pos d; omega
  rw [deg_eq_msb_succ t (fun e => h0 (by simp [e])), (msb_eq_iff h0).mpr ⟨h1, h2⟩]

/-- Only the zero tap mask has degree 0. -/
theorem deg_eq_zero_iff (t : Word24) : deg t = 0 ↔ t = 0#24 := by
  constructor
  · intro h
    by_contra hne
    rw [deg_eq_msb_succ t hne] at h
    omega
  · rintro rfl; decide

theorem deg_le (t : Word24) : deg t ≤ 24 := by
  by_cases h : t = 0#24
  · subst h; decide
  · have h0 : t.toNat ≠ 0 := fun e => h (BitVec.eq_of_toNat_eq e)
    rw [deg_eq_msb_succ t h]
    have : msb t.toNat < 24 := (Nat.log2_lt h0).mpr t.isLt
    omega

/-- The highest set bit of a tap mask is bit `DEG - 1` (10_state.md R22). -/
theorem taps_bounds (t : Word24) (h : t ≠ 0#24) : 2 ^ (deg t - 1) ≤ t.toNat ∧ t.toNat < 2 ^ deg t := by
  have h0 : t.toNat ≠ 0 := fun e => h (BitVec.eq_of_toNat_eq e)
  rw [deg_eq_msb_succ t h]
  exact ⟨Nat.log2_self_le h0, Nat.lt_log2_self⟩

theorem taps_top_bit (t : Word24) (h : t ≠ 0#24) : t.getLsbD (deg t - 1) = true := by
  obtain ⟨h1, h2⟩ := taps_bounds t h
  have hd : 0 < deg t := by
    rcases Nat.eq_zero_or_pos (deg t) with e | e
    · exact absurd ((deg_eq_zero_iff t).mp e) h
    · exact e
  rw [BitVec.getLsbD, Nat.testBit_eq_decide_div_mod_eq]
  have : t.toNat / 2 ^ (deg t - 1) = 1 := by
    rw [Nat.div_eq_iff (Nat.two_pow_pos _)]
    have : 2 ^ deg t = 2 ^ (deg t - 1) * 2 := by rw [← Nat.pow_succ]; congr 1; omega
    omega
  simp [this]

theorem taps_high_bits (t : Word24) (i : Nat) (h : deg t ≤ i) : t.getLsbD i = false := by
  by_cases h0 : t = 0#24
  · simp [h0]
  · rw [BitVec.getLsbD]
    exact Nat.testBit_lt_two_pow (lt_of_lt_of_le (taps_bounds t h0).2 (Nat.pow_le_pow_right (by decide) h))

@[simp] theorem getLsbD_mask (n i : Nat) : (mask n).getLsbD i = (decide (i < 24) && decide (i < n)) := by
  simp [mask, BitVec.getLsbD_ofNat, Nat.testBit_two_pow_sub_one]

/-- The new register of a step, bit by bit (41_lfsr_engine.md R110, R111). -/
theorem getLsbD_stepFn (r t : Word24) (i : Nat) :
    (stepFn r t).1.getLsbD i =
      (decide (i < 24) && decide (i < deg t) && (if i = 0 then feedback r t else r.getLsbD (i - 1))) := by
  simp only [stepFn, BitVec.getLsbD_and, BitVec.getLsbD_or, BitVec.getLsbD_shiftLeft, BitVec.getLsbD_setWidth, getLsbD_mask,
    BitVec.getLsbD_ofBool]
  by_cases h0 : i = 0
  · subst h0; cases decide (0 < deg t) <;> simp
  · have : 0 < i := by omega
    by_cases h24 : i < 24 <;> by_cases hd : i < deg t <;> simp [h0, h24, hd]

/-- A register is below `2^d` exactly when its bits from `d` up are clear. -/
theorem lt_two_pow_iff_high_bits (r : Word24) (d : Nat) : r.toNat < 2 ^ d ↔ ∀ i, d ≤ i → r.getLsbD i = false := by
  constructor
  · intro h i hi
    exact Nat.testBit_lt_two_pow (lt_of_lt_of_le h (Nat.pow_le_pow_right (by decide) hi))
  · intro h
    exact Nat.lt_pow_two_of_testBit _ (fun i hi => h i hi)

/-- A step's result fits in `DEG` bits (10_state.md R24, 41_lfsr_engine.md R122). -/
theorem stepFn_lt (r t : Word24) : (stepFn r t).1.toNat < 2 ^ deg t := by
  rw [lt_two_pow_iff_high_bits]
  intro i hi
  rw [getLsbD_stepFn]
  simp [Nat.not_lt.mpr hi]

/-- `popcount` of an XOR has the parity of the sum. -/
theorem parity_xor {w : Nat} (a b : BitVec w) : parity (a ^^^ b) = (parity a ^^ parity b) := by
  have key : ∀ l : List Nat, (l.countP (fun i => (a ^^^ b).getLsbD i)) % 2 =
      (l.countP (fun i => a.getLsbD i) + l.countP (fun i => b.getLsbD i)) % 2 := by
    intro l
    induction l with
    | nil => simp
    | cons i l ih =>
      simp only [List.countP_cons, BitVec.getLsbD_xor]
      cases a.getLsbD i <;> cases b.getLsbD i <;> simp <;> simp only [BitVec.getLsbD_xor] at ih <;> omega
  unfold parity popcount
  rw [key]
  rcases Nat.mod_two_eq_zero_or_one ((List.range w).countP (fun i => a.getLsbD i)) with h1 | h1 <;>
  rcases Nat.mod_two_eq_zero_or_one ((List.range w).countP (fun i => b.getLsbD i)) with h2 | h2 <;>
  simp [Nat.add_mod, h1, h2]

/-- The feedback bit as the number `popcount(r & t) mod 2`. -/
theorem feedback_toNat (r t : Word24) : (feedback r t).toNat = popcount (r &&& t) % 2 := by
  unfold feedback parity
  rcases Nat.mod_two_eq_zero_or_one (popcount (r &&& t)) with h | h <;> simp [h]

/-- `P >> 1` as a number. -/
theorem tapsOf_toNat (p : Poly) : (tapsOf p).toNat = p.toNat / 2 := by
  have := p.isLt
  simp only [tapsOf, BitVec.toNat_setWidth, BitVec.toNat_ushiftRight, Nat.shiftRight_eq_div_pow]
  omega

theorem polyDeg_le (p : Poly) : polyDeg p ≤ 24 := by
  unfold polyDeg msb
  by_cases h : p.toNat = 0
  · simp [h]
  · have := (Nat.log2_lt h (k := 25)).mpr p.isLt
    omega

/-- Every index below `n` is drawn for some raw draw. -/
theorem drawIndex_of_lt {i n : Nat} (h : i < n) : drawIndex i n = i := Nat.mod_eq_of_lt h

theorem drawIndex_lt (draw : Nat) {n : Nat} (h : 0 < n) : drawIndex draw n < n := Nat.mod_lt _ h

/-- A drawn seed is in `[1, 2^d - 1]`. -/
theorem drawSeed_range (draw : Nat) {d : Nat} (h0 : 0 < d) (h : d ≤ 24) :
    1 ≤ (drawSeed draw d).toNat ∧ (drawSeed draw d).toNat < 2 ^ d := by
  have h1 : 2 ≤ 2 ^ d := by
    calc 2 = 2 ^ 1 := rfl
      _ ≤ 2 ^ d := Nat.pow_le_pow_right (by decide) h0
  have h2 : 2 ^ d ≤ 2 ^ 24 := Nat.pow_le_pow_right (by decide) h
  have h3 : draw % (2 ^ d - 1) < 2 ^ d - 1 := Nat.mod_lt _ (by omega)
  have : (drawSeed draw d).toNat = 1 + draw % (2 ^ d - 1) := by
    simp only [drawSeed, BitVec.toNat_ofNat]
    exact Nat.mod_eq_of_lt (by omega)
  omega

/-- Every value of `[1, 2^d - 1]` is drawn for some raw draw. -/
theorem drawSeed_of_range {v : Word24} {d : Nat} (h1 : 1 ≤ v.toNat) (h2 : v.toNat < 2 ^ d) :
    drawSeed (v.toNat - 1) d = v := by
  apply BitVec.eq_of_toNat_eq
  have : v.toNat - 1 < 2 ^ d - 1 := by omega
  simp only [drawSeed, BitVec.toNat_ofNat, Nat.mod_eq_of_lt this]
  have := v.isLt
  omega

end Sys2Proof.Machine
end

