-- ==== Sys2Proof/Laws/Flags.lean ====
section
/-! SUPPORT. The response words as numbers (30_encoding.md R66). -/

namespace Sys2Proof.Machine

theorem configResponse_eq (d : Nat) (t : Word24) (hd : d ≤ 24) :
    configResponse d t = BitVec.ofNat 32 (d * 2 ^ 24 + t.toNat) := by
  apply BitVec.eq_of_toNat_eq
  have ht := t.isLt
  simp only [configResponse, BitVec.toNat_or, BitVec.toNat_shiftLeft, BitVec.toNat_ofNat, BitVec.toNat_setWidth]
  have e : (d % 2 ^ 32) <<< 24 % 2 ^ 32 = d <<< 24 := by simp only [Nat.shiftLeft_eq]; omega
  rw [e, Nat.mod_eq_of_lt (by omega : t.toNat < 2 ^ 32), ← Nat.shiftLeft_add_eq_or_of_lt ht, Nat.shiftLeft_eq]
  omega

theorem stepResponse_eq (b : Bool) (t : Word24) : stepResponse b t = BitVec.ofNat 32 (b.toNat * 2 ^ 24 + t.toNat) := by
  apply BitVec.eq_of_toNat_eq
  have ht := t.isLt
  simp only [stepResponse, BitVec.toNat_or, BitVec.toNat_shiftLeft, BitVec.toNat_ofNat, BitVec.toNat_setWidth,
    BitVec.toNat_ofBool]
  have e : (b.toNat % 2 ^ 32) <<< 24 % 2 ^ 32 = b.toNat <<< 24 := by cases b <;> rfl
  rw [e, Nat.mod_eq_of_lt (by omega : t.toNat < 2 ^ 32), ← Nat.shiftLeft_add_eq_or_of_lt ht, Nat.shiftLeft_eq]
  cases b <;> simp <;> omega

theorem regResponse_eq (t : Word24) : regResponse t = BitVec.ofNat 32 t.toNat := by
  apply BitVec.eq_of_toNat_eq
  simp [regResponse]

theorem readResponse_eq (v : BitVec 25) : readResponse v = BitVec.ofNat 32 v.toNat := by
  apply BitVec.eq_of_toNat_eq
  simp [readResponse]

theorem errorResponse_eq (c : Code) : errorResponse c = BitVec.ofNat 32 (2 ^ 31 + c.toNat) := by
  revert c
  decide

end Sys2Proof.Machine
end

