-- ==== Sys2Proof/Laws/State.lean ====
section
/-! SUPPORT. The small lemmas of State: one per field per update, so that no later proof unfolds a record update. -/

namespace Sys2Proof.Machine

@[simp] theorem State.putInst_insts (s : State) (r : Inst) : (s.putInst r).insts = s.insts.set s.port r := rfl
@[simp] theorem State.putInst_pool (s : State) (r : Inst) : (s.putInst r).pool = s.pool := rfl
@[simp] theorem State.putInst_host (s : State) (r : Inst) : (s.putInst r).host = s.host := rfl
@[simp] theorem State.putInst_port (s : State) (r : Inst) : (s.putInst r).port = s.port := rfl
@[simp] theorem State.putInst_draw (s : State) (r : Inst) : (s.putInst r).draw = s.draw := rfl
@[simp] theorem State.putInst_command (s : State) (r : Inst) : (s.putInst r).command = s.command := rfl
@[simp] theorem State.putInst_trace (s : State) (r : Inst) : (s.putInst r).trace = s.trace := rfl
@[simp] theorem State.putInst_responses (s : State) (r : Inst) : (s.putInst r).responses = s.responses := rfl

@[simp] theorem State.respond_insts (s : State) (w : Word) : (s.respond w).insts = s.insts := rfl
@[simp] theorem State.respond_pool (s : State) (w : Word) : (s.respond w).pool = s.pool := rfl
@[simp] theorem State.respond_host (s : State) (w : Word) : (s.respond w).host = s.host := rfl
@[simp] theorem State.respond_port (s : State) (w : Word) : (s.respond w).port = s.port := rfl
@[simp] theorem State.respond_draw (s : State) (w : Word) : (s.respond w).draw = s.draw := rfl
@[simp] theorem State.respond_command (s : State) (w : Word) : (s.respond w).command = s.command := rfl
@[simp] theorem State.respond_trace (s : State) (w : Word) :
    (s.respond w).trace = s.trace ++ [.exchange s.port s.command s.draw w] := rfl
@[simp] theorem State.respond_responses (s : State) (w : Word) :
    (s.respond w).responses = s.responses ++ [⟨s.port, w⟩] := by
  simp [State.responses, TraceEntry.response?]

@[simp] theorem State.accept_insts (s : State) (p d : Nat) (c : Word) (l : List HostEvent) :
    (s.accept p c d l).insts = s.insts := rfl
@[simp] theorem State.accept_pool (s : State) (p d : Nat) (c : Word) (l : List HostEvent) :
    (s.accept p c d l).pool = s.pool := rfl
@[simp] theorem State.accept_host (s : State) (p d : Nat) (c : Word) (l : List HostEvent) :
    (s.accept p c d l).host = l := rfl
@[simp] theorem State.accept_port (s : State) (p d : Nat) (c : Word) (l : List HostEvent) :
    (s.accept p c d l).port = p := rfl
@[simp] theorem State.accept_draw (s : State) (p d : Nat) (c : Word) (l : List HostEvent) :
    (s.accept p c d l).draw = d := rfl
@[simp] theorem State.accept_command (s : State) (p d : Nat) (c : Word) (l : List HostEvent) :
    (s.accept p c d l).command = c := rfl
@[simp] theorem State.accept_trace (s : State) (p d : Nat) (c : Word) (l : List HostEvent) :
    (s.accept p c d l).trace = s.trace := rfl
@[simp] theorem State.accept_responses (s : State) (p d : Nat) (c : Word) (l : List HostEvent) :
    (s.accept p c d l).responses = s.responses := rfl

@[simp] theorem State.current_accept (s : State) (p d : Nat) (c : Word) (l : List HostEvent) :
    (s.accept p c d l).current = s.insts[p]? := rfl
@[simp] theorem State.current_respond (s : State) (w : Word) : (s.respond w).current = s.current := rfl
@[simp] theorem State.poolCount_accept (s : State) (p d : Nat) (c : Word) (l : List HostEvent) :
    (s.accept p c d l).poolCount = s.poolCount := rfl

/-- Writing back what is there changes nothing. -/
theorem State.putInst_current (s : State) (r : Inst) (h : s.current = some r) : s.putInst r = s := by
  obtain ⟨hlt, hr⟩ := List.getElem?_eq_some_iff.mp h
  simp [State.putInst, ← hr]

/-- A read of the addressed instance after a write gives what was written. -/
theorem State.current_putInst (s : State) (r r' : Inst) (h : s.current = some r) : (s.putInst r').current = some r' := by
  obtain ⟨hlt, -⟩ := List.getElem?_eq_some_iff.mp h
  simp [State.current, hlt]

/-- A write leaves every other instance alone. -/
theorem State.getElem?_putInst_of_ne (s : State) (r : Inst) (k : Nat) (h : k ≠ s.port) :
    (s.putInst r).insts[k]? = s.insts[k]? := by
  simp [List.getElem?_set_ne (Ne.symm h)]

@[simp] theorem State.powerUp_insts (pool : List Poly) (n : Nat) :
    (State.powerUp pool n).insts = List.replicate n Inst.reset := rfl
@[simp] theorem State.powerUp_pool (pool : List Poly) (n : Nat) : (State.powerUp pool n).pool = pool := rfl
@[simp] theorem State.powerUp_host (pool : List Poly) (n : Nat) : (State.powerUp pool n).host = [] := rfl
@[simp] theorem State.powerUp_trace (pool : List Poly) (n : Nat) : (State.powerUp pool n).trace = [] := rfl
@[simp] theorem State.powerUp_responses (pool : List Poly) (n : Nat) : (State.powerUp pool n).responses = [] := rfl

end Sys2Proof.Machine
end

