-- ==== Sys2Proof/Laws/Ops.lean ====
section
/-! SUPPORT. One lemma per shared operation that says everything it can do, to be cited instead of unfolding it. -/

namespace Sys2Proof.Machine

/-- Fault entry, when `FAULT` is 0: the code is recorded and answered. -/
theorem raiseFault_of_running (c : Cause) (r : Inst) (s : State) (h : r.fault = 0#4) :
    raiseFault c r s = (s.putInst { r with fault := causeCode c }).respond (errorResponse (causeCode c)) := by
  simp [raiseFault, h]

/-- Fault entry, when `FAULT` is not 0: the first code is kept and answered. -/
theorem raiseFault_of_halted (c : Cause) (r : Inst) (s : State) (h : r.fault ≠ 0#4) :
    raiseFault c r s = (s.putInst r).respond (errorResponse r.fault) := by
  unfold raiseFault
  rw [if_neg h]

/-- What a command other than READ can do, and when. -/
theorem runCommand_cases {s t : State} {rule : Inst → Ending} (h : runCommand s rule = .next t) :
    ∃ r, s.current = some r ∧
      ((r.fault ≠ 0#4 ∧ t = (s.putInst r).respond (errorResponse r.fault)) ∨
       (r.fault = 0#4 ∧ ∃ r' w, rule r = .completes r' w ∧ t = (s.putInst r').respond w) ∨
       (r.fault = 0#4 ∧ ∃ c, rule r = .raises c ∧
          t = (s.putInst { r with fault := causeCode c }).respond (errorResponse (causeCode c)))) := by
  unfold runCommand at h
  split at h
  · cases h
  · rename_i r hr
    refine ⟨r, hr, ?_⟩
    split at h
    · rename_i hf
      cases h
      exact .inl ⟨hf, by rw [State.putInst_current s r hr, refuse]⟩
    · rename_i hf
      have hf : r.fault = 0#4 := by simpa using hf
      cases h
      cases hrule : rule r with
      | completes r' w => exact .inr (.inl ⟨hf, r', w, rfl, rfl⟩)
      | raises c => exact .inr (.inr ⟨hf, c, rfl, raiseFault_of_running c r s hf⟩)

/-- What a READ can do, and when. -/
theorem runRead_cases {s t : State} {rule : Inst → Ending} (h : runRead s rule = .next t) :
    ∃ r, s.current = some r ∧
      ((∃ r' w, rule r = .completes r' w ∧ t = (s.putInst r').respond w) ∨
       (∃ c, rule r = .raises c ∧ t = raiseFault c r s)) := by
  unfold runRead at h
  split at h
  · cases h
  · rename_i r hr
    cases h
    refine ⟨r, hr, ?_⟩
    cases rule r with
    | completes r' w => exact .inl ⟨r', w, rfl, rfl⟩
    | raises c => exact .inr ⟨c, rfl, rfl⟩

/-- A running instance carries out the rule of its command. -/
theorem runCommand_running {s : State} {r : Inst} (rule : Inst → Ending) (h : s.current = some r) (hf : r.fault = 0#4) :
    runCommand s rule = .next (settle r s (rule r)) := by
  simp [runCommand, h, hf]

/-- A halted instance answers with its code and changes nothing. -/
theorem runCommand_halted {s : State} {r : Inst} (rule : Inst → Ending) (h : s.current = some r) (hf : r.fault ≠ 0#4) :
    runCommand s rule = .next (s.respond (errorResponse r.fault)) := by
  simp only [runCommand, h, if_pos hf, refuse]

/-- An instance, halted or not, carries out a READ. -/
theorem runRead_next {s : State} {r : Inst} (rule : Inst → Ending) (h : s.current = some r) :
    runRead s rule = .next (settle r s (rule r)) := by
  simp [runRead, h]

@[simp] theorem settle_completes (r : Inst) (s : State) (r' : Inst) (w : Word) :
    settle r s (.completes r' w) = (s.putInst r').respond w := rfl
@[simp] theorem settle_raises (r : Inst) (s : State) (c : Cause) : settle r s (.raises c) = raiseFault c r s := rfl

/-- However a command ends, it writes the registers of the addressed instance and sends one response. -/
theorem settle_shape (r : Inst) (s : State) (e : Ending) : ∃ r' w, settle r s e = (s.putInst r').respond w := by
  cases e with
  | completes r' w => exact ⟨r', w, rfl⟩
  | raises c => exact ⟨_, _, rfl⟩

/-- Fault codes are 1 to 8 (60_exceptions.md R150). -/
theorem causeCode_range (c : Cause) : causeCode c ≠ 0#4 ∧ (causeCode c).toNat ≤ 8 := by
  cases c <;> decide

/-- Every meaning, when it answers a next state, writes the registers of the addressed instance and sends one
response on its port; it does nothing else. -/
theorem exec_shape {i : Instr} {s t : State} (h : exec i s = .next t) :
    ∃ r r' w, s.current = some r ∧ t = (s.putInst r').respond w := by
  have command : ∀ rule, runCommand s rule = .next t → ∃ r r' w, s.current = some r ∧ t = (s.putInst r').respond w := by
    intro rule hr
    obtain ⟨r, hc, ⟨-, rfl⟩ | ⟨-, r', w, -, rfl⟩ | ⟨-, c, -, rfl⟩⟩ := runCommand_cases hr
    · exact ⟨r, _, _, hc, rfl⟩
    · exact ⟨r, _, _, hc, rfl⟩
    · exact ⟨r, _, _, hc, rfl⟩
  have read : ∀ rule, runRead s rule = .next t → ∃ r r' w, s.current = some r ∧ t = (s.putInst r').respond w := by
    intro rule hr
    obtain ⟨r, hc, ⟨r', w, -, rfl⟩ | ⟨c, -, rfl⟩⟩ := runRead_cases hr
    · exact ⟨r, _, _, hc, rfl⟩
    · exact ⟨r, _, _, hc, rfl⟩
  cases i with
  | select => exact command _ h
  | seed => exact command _ h
  | step => exact command _ h
  | ldtaps imm => exact command _ h
  | ldreg imm => exact command _ h
  | readTaps => exact read _ h
  | readDeg => exact read _ h
  | readReg => exact read _ h
  | readFault => exact read _ h
  | readPoolcount => exact read _ h
  | readPool imm => exact read _ h

/-- The reset event, when it answers a next state. -/
theorem resetPort_cases {s t : State} {p : Nat} (h : resetPort p s = .next t) :
    p < s.insts.length ∧
      t = { s with insts := s.insts.set p Inst.reset, trace := s.trace ++ [.reset p] } := by
  unfold resetPort at h
  split at h
  · cases h; exact ⟨‹_›, rfl⟩
  · cases h

/-- What one step can do: wait, reset an instance, or accept a command word and execute it. -/
theorem step_cases {s t : State} (h : step s = .next t) :
    (s.host = [] ∧ t = s) ∨
    (∃ p rest, s.host = .reset p :: rest ∧ resetPort p { s with host := rest } = .next t) ∨
    (∃ p w d rest, s.host = .command p w d :: rest ∧ execWord w (s.accept p w d rest) = .next t) := by
  unfold step fetch at h
  match hh : s.host with
  | [] => simp only [hh] at h; cases h; exact .inl ⟨rfl, rfl⟩
  | .reset p :: rest => simp only [hh] at h; exact .inr (.inl ⟨p, rest, rfl, h⟩)
  | .command p w d :: rest => simp only [hh] at h; exact .inr (.inr ⟨p, w, d, rest, rfl, h⟩)

end Sys2Proof.Machine
end

