-- ==== Sys2Proof/Laws/Exec.lean ====
section
/-! SUPPORT. What `exec` does, said once: each command has a rule, and the addressed instance carries it out unless it is
halted and the command is not a READ. -/

namespace Sys2Proof.Machine

/-- The rule that a command carries out on the registers of its instance. -/
def ruleOf (i : Instr) (s : State) : Inst → Ending :=
  match i with
  | .select => selectRule s
  | .seed => seedRule s.draw
  | .step => stepRule
  | .ldtaps imm => ldtapsRule imm
  | .ldreg imm => ldregRule imm
  | .readTaps => readRule (fun r => r.taps.setWidth 25)
  | .readDeg => readRule (fun r => BitVec.ofNat 25 (deg r.taps))
  | .readReg => readRule (fun r => r.reg.setWidth 25)
  | .readFault => readRule (fun r => r.fault.setWidth 25)
  | .readPoolcount => readRule (fun _ => BitVec.ofNat 25 s.poolCount)
  | .readPool imm => readPoolRule s imm

theorem exec_eq_rule (i : Instr) (s : State) :
    exec i s = if i.isRead then runRead s (ruleOf i s) else runCommand s (ruleOf i s) := by
  cases i <;> rfl

/-- `exec` on an instance that exists: the refusal of a halted instance, or the command's rule carried out. -/
theorem exec_of_current {i : Instr} {s : State} {r : Inst} (hc : s.current = some r) :
    exec i s =
      if i.isRead = false ∧ r.fault ≠ 0#4 then .next (s.respond (errorResponse r.fault))
      else .next (settle r s (ruleOf i s r)) := by
  rw [exec_eq_rule]
  by_cases hi : i.isRead
  · simp [hi, runRead_next _ hc]
  · by_cases hf : r.fault = 0#4
    · simp [hi, hf, runCommand_running _ hc hf]
    · simp [hi, hf, runCommand_halted (ruleOf i s) hc hf]

/-- `exec` on a port that no instance has. -/
theorem exec_of_none {i : Instr} {s : State} (hc : s.current = none) : exec i s = .fault (.noSuchInstance s.port) := by
  rw [exec_eq_rule]
  by_cases hi : i.isRead
  · simp [hi, runRead, hc]
  · simp [hi, runCommand, hc]

/-- What an illegal word does, when it answers a next state. -/
theorem execIllegal_shape {s t : State} (h : execIllegal s = .next t) :
    ∃ r r' w, s.current = some r ∧ t = (s.putInst r').respond w := by
  obtain ⟨r, hc, ⟨-, rfl⟩ | ⟨-, r', w, -, rfl⟩ | ⟨-, c, -, rfl⟩⟩ := runCommand_cases h
  · exact ⟨r, _, _, hc, rfl⟩
  · exact ⟨r, _, _, hc, rfl⟩
  · exact ⟨r, _, _, hc, rfl⟩

/-- Executing a word, when it answers a next state, writes the addressed instance and sends one response. -/
theorem execWord_shape {w : Word} {s t : State} (h : execWord w s = .next t) :
    ∃ r r' v, s.current = some r ∧ t = (s.putInst r').respond v := by
  unfold execWord at h
  split at h
  · exact execIllegal_shape h
  · exact exec_shape h

theorem respond_putInst_eq_answered (s : State) (r : Inst) (w : Word) : (s.putInst r).respond w = s.answered r w := rfl

theorem respond_eq_replied (s : State) (w : Word) : s.respond w = s.replied w := rfl

/-- A READ whose rule completes leaves the registers as they are. -/
theorem read_rule_keeps {i : Instr} {s : State} {r r' : Inst} {w : Word} (hi : i.isRead = true)
    (h : ruleOf i s r = .completes r' w) : r' = r := by
  cases i <;> simp only [Instr.isRead, Bool.false_eq_true] at hi <;> simp only [ruleOf, readRule, readPoolRule] at h
  case readPool imm => split_ifs at h; injection h with h1; exact h1.symm
  all_goals injection h with h1; exact h1.symm

end Sys2Proof.Machine
end

