-- ==== Sys2Proof/Laws/PerInstr.lean ====
section
/-! SUPPORT. The statements made per instruction: each command's word agrees with its row of spec/opcode_table.json. -/

namespace Sys2Proof.Laws.TableRow

/-- Mask and match of a command's row, as spec/opcode_table.json writes them. -/
def rowOf : Instr → Word × Word
  | .select => (0xFFFFFFFF#32, 0x10000000#32)
  | .seed => (0xFFFFFFFF#32, 0x20000000#32)
  | .step => (0xFFFFFFFF#32, 0x30000000#32)
  | .ldtaps _ => (0xFF000000#32, 0x40000000#32)
  | .ldreg _ => (0xFF000000#32, 0x50000000#32)
  | .readTaps => (0xFFFFFFFF#32, 0x60000000#32)
  | .readDeg => (0xFFFFFFFF#32, 0x61000000#32)
  | .readReg => (0xFFFFFFFF#32, 0x62000000#32)
  | .readFault => (0xFFFFFFFF#32, 0x63000000#32)
  | .readPoolcount => (0xFFFFFFFF#32, 0x64000000#32)
  | .readPool _ => (0xFF000000#32, 0x65000000#32)

/-- The operand a command's word carries in `IMM`; 0 where it must be 0. -/
def operandOf : Instr → Word24
  | .select => 0#24
  | .seed => 0#24
  | .step => 0#24
  | .ldtaps imm => imm
  | .ldreg imm => imm
  | .readTaps => 0#24
  | .readDeg => 0#24
  | .readReg => 0#24
  | .readFault => 0#24
  | .readPoolcount => 0#24
  | .readPool imm => imm

/-- The word of a command is of its row, carries its operand in bits 23..0, and its row is one of the decoder's. -/
def Statement (i : Instr) : Prop :=
  encode i &&& (rowOf i).1 = (rowOf i).2 ∧ (encode i).toNat % 2 ^ 24 = (operandOf i).toNat ∧ rowOf i ∈ patternTable

/-- The mask of a row with an operand keeps the two upper fields. -/
theorem formatC_and_high (opc sel : BitVec 4) (imm : Word24) : formatC opc sel imm &&& 0xFF000000#32 = formatC opc sel 0#24 := by
  have e : 0xFF000000#32 = formatC 15#4 15#4 0#24 := by decide
  have a : ∀ x : BitVec 4, x &&& 15#4 = x := by decide
  rw [e, formatC_and, a, a, BitVec.and_zero]

theorem formatC_low (opc sel : BitVec 4) (imm : Word24) : (formatC opc sel imm).toNat % 2 ^ 24 = imm.toNat := by
  rw [formatC_toNat]
  have := imm.isLt
  omega

theorem select : Statement .select := by unfold Statement; decide
theorem seed : Statement .seed := by unfold Statement; decide
theorem step : Statement .step := by unfold Statement; decide
theorem ldtaps (imm : Word24) : Statement (.ldtaps imm) :=
  ⟨(formatC_and_high _ _ _).trans (by simp only [rowOf]; decide), formatC_low _ _ _, by simp only [rowOf]; decide⟩
theorem ldreg (imm : Word24) : Statement (.ldreg imm) :=
  ⟨(formatC_and_high _ _ _).trans (by simp only [rowOf]; decide), formatC_low _ _ _, by simp only [rowOf]; decide⟩
theorem readTaps : Statement .readTaps := by unfold Statement; decide
theorem readDeg : Statement .readDeg := by unfold Statement; decide
theorem readReg : Statement .readReg := by unfold Statement; decide
theorem readFault : Statement .readFault := by unfold Statement; decide
theorem readPoolcount : Statement .readPoolcount := by unfold Statement; decide
theorem readPool (imm : Word24) : Statement (.readPool imm) :=
  ⟨(formatC_and_high _ _ _).trans (by simp only [rowOf]; decide), formatC_low _ _ _, by simp only [rowOf]; decide⟩

end Sys2Proof.Laws.TableRow
end

