-- ==== Sys2Proof/Laws/Run.lean ====
section
/-! SUPPORT. How the run of an instance grows, one lemma per operation that may touch it, and what a step does by the kind
of its event. -/

namespace Sys2Proof.Machine

@[simp] theorem State.runOf_putInst (s : State) (r : Inst) (k : Nat) : (s.putInst r).runOf k = s.runOf k := rfl
@[simp] theorem State.runOf_accept (s : State) (p d : Nat) (c : Word) (l : List HostEvent) (k : Nat) :
    (s.accept p c d l).runOf k = s.runOf k := rfl
@[simp] theorem State.runOf_powerUp (pool : List Poly) (n k : Nat) : (State.powerUp pool n).runOf k = [] := rfl

/-- A response adds one exchange to the run of the addressed instance and nothing to any other. -/
theorem State.runOf_respond (s : State) (w : Word) (k : Nat) :
    (s.respond w).runOf k =
      if s.port = k then s.runOf k ++ [⟨s.command, drawTaken s.pool s.command s.draw w, w⟩] else s.runOf k := by
  simp [State.runOf, State.respond, extendRun]

/-- A reset empties the run of its instance and leaves every other run alone. -/
theorem runOf_resetPort {s t : State} {p : Nat} (h : resetPort p s = .next t) (k : Nat) :
    t.runOf k = if p = k then [] else s.runOf k := by
  unfold resetPort at h
  split at h
  · cases h; simp [State.runOf, extendRun]
  · cases h

/-- An instance that is there is observed, with its own registers and the responses of its run. -/
theorem State.observe_eq_some {s : State} {k : Nat} {r : Inst} (h : s.insts[k]? = some r) :
    s.observe k = some ⟨r.taps, r.reg, r.fault, (s.runOf k).map Exchange.response⟩ := by
  simp [State.observe, h]

/-- A step whose event is a reset. -/
theorem step_of_reset {s t : State} {p : Nat} {rest : List HostEvent} (hh : s.host = .reset p :: rest)
    (h : step s = .next t) :
    p < s.insts.length ∧
      t = { s with host := rest, insts := s.insts.set p Inst.reset, trace := s.trace ++ [.reset p] } := by
  unfold step fetch at h
  rw [hh] at h
  exact resetPort_cases h

/-- A step whose event is a command: the addressed instance's registers may change, and it answers. -/
theorem step_of_command {s t : State} {p d : Nat} {w : Word} {rest : List HostEvent} (hh : s.host = .command p w d :: rest)
    (h : step s = .next t) :
    ∃ r r' v, s.insts[p]? = some r ∧ t = ((s.accept p w d rest).putInst r').respond v := by
  unfold step fetch at h
  rw [hh] at h
  exact execWord_shape h

/-- A step takes the oldest event. -/
theorem step_host {s t : State} (h : step s = .next t) : t.host = s.host.tail := by
  match hh : s.host with
  | [] => rw [step, fetch, hh] at h; cases h; exact hh
  | .reset p :: rest => obtain ⟨-, rfl⟩ := step_of_reset hh h; rfl
  | .command p w d :: rest => obtain ⟨-, -, -, -, rfl⟩ := step_of_command hh h; rfl

/-- A run of `n` steps takes the `n` oldest events. -/
theorem runFor_host {n : Nat} {s t : State} (h : runFor n s = .next t) : t.host = s.host.drop n := by
  induction n generalizing s with
  | zero => cases h; rfl
  | succ n ih =>
    unfold runFor at h
    split at h
    · rename_i u hu; rw [ih h, step_host hu, List.drop_tail]
    · cases h
    · cases h

/-- A run of `m + n` steps is a run of `m` steps and then one of `n`. -/
theorem runFor_add (m n : Nat) (s : State) :
    runFor (m + n) s =
      match runFor m s with
      | .next t => runFor n t
      | .fault r => .fault r
      | .refused r => .refused r := by
  induction m generalizing s with
  | zero => simp [runFor]
  | succ m ih =>
    rw [Nat.succ_add]
    simp only [runFor]
    cases step s with
    | next t => exact ih t
    | fault r => rfl
    | refused r => rfl

end Sys2Proof.Machine
end

