-- ==== Sys2Proof/Laws/Selector.lean ====
section
/-! SUPPORT. The parts of the search (40_polynomial_cache.md): one pass of the remainder, and the ranges it counts. -/

namespace Sys2Proof.Machine

/-- One pass of `GF2Mod` clears bit `msb(a)` and changes no higher bit (R80). -/
theorem gf2_pass_lt {a b : Nat} (hb : 1 ≤ b) (ha : a ≠ 0) (h : msb b ≤ msb a) :
    a ^^^ (b <<< (msb a - msb b)) < 2 ^ msb a := by
  have top : ∀ v : Nat, v ≠ 0 → v.testBit (msb v) = true := by
    intro v hv
    obtain ⟨h1, h2⟩ := (msb_eq_iff hv (i := msb v)).mp rfl
    have : v / 2 ^ msb v = 1 := by
      rw [Nat.div_eq_iff (Nat.two_pow_pos _)]
      rw [Nat.pow_succ] at h2
      omega
    rw [Nat.testBit_eq_decide_div_mod_eq]
    simp [this]
  have above : ∀ v i : Nat, v ≠ 0 → msb v < i → v.testBit i = false := by
    intro v i hv hi
    exact Nat.testBit_lt_two_pow (lt_of_lt_of_le ((msb_eq_iff hv).mp rfl).2 (Nat.pow_le_pow_right (by decide) hi))
  have hb0 : b ≠ 0 := by omega
  apply Nat.lt_pow_two_of_testBit
  intro i hi
  rw [Nat.testBit_xor, Nat.testBit_shiftLeft]
  rcases Nat.eq_or_lt_of_le hi with rfl | hi
  · have e : msb a - (msb a - msb b) = msb b := by omega
    simp [top a ha, e, top b hb0]
  · rw [above a i ha hi, above b _ hb0 (by omega)]
    simp

theorem mem_downTo (hi lo x : Nat) : x ∈ downTo hi lo ↔ lo ≤ x ∧ x ≤ hi := by
  simp only [downTo, List.mem_reverse, List.mem_range'_1]
  omega

theorem length_downTo (hi lo : Nat) : (downTo hi lo).length = hi + 1 - lo := by
  simp [downTo]

theorem downTo_pairwise (hi lo : Nat) : (downTo hi lo).Pairwise (fun a b => a > b) := by
  unfold downTo
  rw [List.pairwise_reverse]
  exact List.pairwise_lt_range'

end Sys2Proof.Machine
end

