-- ==== Sys2Proof/Tests/Slice0.lean ====
section
/-! SUPPORT. Tests of the model, each expected value taken from spec/95_test_vectors.md (the vector is named) or worked out by
hand from the rule named, and for every claim with hypotheses a witness that meets them. -/

namespace Sys2Proof.Tests

open Sys2Proof.Machine

/-- One instance with the given registers, at port 0, and a pool and a raw draw. -/
def one (taps reg : Word24) (fault : Code) (pool : List Poly := []) (draw : Nat := 0) : State :=
  { insts := [⟨taps, reg, fault⟩], pool := pool, host := [], port := 0, command := 0#32, draw := draw, trace := [] }

/-- The next state, if there is one. -/
def got (o : Host.Outcome State Fault Refusal) : Option State :=
  match o with
  | .next t => some t
  | .fault _ => none
  | .refused _ => none

theorem next_of_got {o : Host.Outcome State Fault Refusal} {t : State} (h : got o = some t) : o = .next t := by
  cases o with
  | next s => simp only [got, Option.some.injEq] at h; rw [h]
  | fault r => cases h
  | refused r => cases h

/-- What a word does to the registers of the instance at port 0, and what it answers. -/
def effect (s : State) (w : Word) : Option (Option Inst × Option Word) :=
  (got (execWord w s)).map (fun t => (t.insts[0]?, t.responses.getLast?.map Response.word))

/-- What the first step after reset does when the host writes the word: the registers of instance 0 and the answer. -/
def firstStep (w : Nat) : Option (Option Inst × Option Word) :=
  (got (step (State.reset.withFetchWord 32 w))).map (fun t => (t.insts[0]?, t.responses.getLast?.map Response.word))

/-! ### Well-formedness: one ill-formed term for each check -/

theorem test_wf_ldtaps_range : (AsmLine.ldtaps (2 ^ 24)).wf = false ∧ (AsmLine.ldtaps (2 ^ 24 - 1)).wf = true := by decide
theorem test_wf_ldreg_range : (AsmLine.ldreg (2 ^ 24)).wf = false ∧ (AsmLine.ldreg 0).wf = true := by decide
theorem test_wf_readPool_range : (AsmLine.readPool (2 ^ 24)).wf = false := by decide
theorem test_wf_ldpoly_even : (AsmLine.ldpoly 4).wf = false := by decide
theorem test_wf_ldpoly_small : (AsmLine.ldpoly 1).wf = false ∧ (AsmLine.ldpoly 3).wf = true := by decide
theorem test_wf_ldpoly_large : (AsmLine.ldpoly (2 ^ 25 + 1)).wf = false ∧ (AsmLine.ldpoly (2 ^ 25 - 1)).wf = true := by decide

/-! ### Decoder (V-D), and words written out bit by bit from R63 -/

theorem test_decode_select : decode 0b00010000000000000000000000000000#32 = some .select := by decide
theorem test_decode_seed : decode 0b00100000000000000000000000000000#32 = some .seed := by decide
theorem test_decode_step : decode 0b00110000000000000000000000000000#32 = some .step := by decide
theorem test_decode_ldtaps : decode 0b01000000000010000000000000000010#32 = some (.ldtaps 0x080002) := by decide
theorem test_decode_ldreg : decode 0b01010000000100100011010001010110#32 = some (.ldreg 0x123456) := by decide
theorem test_decode_readTaps : decode 0b01100000000000000000000000000000#32 = some .readTaps := by decide
theorem test_decode_readDeg : decode 0b01100001000000000000000000000000#32 = some .readDeg := by decide
theorem test_decode_readReg : decode 0b01100010000000000000000000000000#32 = some .readReg := by decide
theorem test_decode_readFault : decode 0b01100011000000000000000000000000#32 = some .readFault := by decide
theorem test_decode_readPoolcount : decode 0b01100100000000000000000000000000#32 = some .readPoolcount := by decide
theorem test_decode_readPool : decode 0b01100101000000000000000000000011#32 = some (.readPool 3) := by decide
theorem test_decode_illegal :
    [0x00000000#32, 0x10000001#32, 0x11000000#32, 0x30000001#32, 0x4F000001#32, 0x60000001#32, 0x66000000#32,
      0x6F000000#32, 0x70000000#32, 0xF0000000#32, 0xFFFFFFFF#32].map decode = List.replicate 11 none := by decide
theorem test_decodeTableWord : decodeTableWord 32 0x40FFFFFF = some (.ldtaps 0xFFFFFF) := by decide

/-! ### Assembler (R68, R69, R70) -/

theorem test_assemble_ldpoly : assembleLine "  ldpoly 0x100005 ; x^20 + x^2 + 1".toList = some (some 0x40080002#32) := by decide
theorem test_assemble_read_pool : assembleLine "READ POOL, 3".toList = some (some 0x65000003#32) := by decide
theorem test_assemble_decimal : assembleLine "LdReg 16777215".toList = some (some 0x50FFFFFF#32) := by decide
theorem test_assemble_comment : assembleLine " ; nothing".toList = some none := by decide
theorem test_assemble_range : assembleLine "LDTAPS 0x1000000".toList = none := by decide
theorem test_assemble_unknown : assembleLine "NOP".toList = none := by decide

/-! ### GF(2) arithmetic, trial test and candidates (V-G, V-T, V-C) -/

theorem test_gf2Mod :
    [gf2Mod 0x100005 0x403, gf2Mod 0x100005 0x3, gf2Mod 0x40005 0x203, gf2Mod 0x13 0x5, gf2Mod 0x60041 0x5,
      gf2Mod 0x60041 0x7, gf2Mod 0x19 0xB, gf2Mod 0x1234 0x1, gf2Mod 0x0 0x5] = [0, 1, 0, 2, 3, 2, 4, 0, 0] := by decide
theorem test_trial_3 : passesTrial 0x60041 3 = false ∧ passesTrial 0x13 3 = true := by decide
theorem test_trial_5 : passesTrial 0x60041 5 = true ∧ passesTrial 0x70001 5 = false := by decide +kernel
theorem test_candidates_18 : (candidates 18).take 3 = [0x70001, 0x68001, 0x64001] ∧
    (candidates 18).getLast? = some 0x40007 ∧ (candidates 18).length = 136 := by decide +kernel
theorem test_admissible : admissibleEntry 0x60041 = true ∧ admissibleEntry 0x1800003 = true ∧
    admissibleEntry 0x100005 = false ∧ admissibleEntry 0x13 = false := by decide

/-! ### SELECT (V-S1, V-S3, P6) -/

theorem test_select_empty : effect (one 0x080002 0x00002A 0) 0x10000000 = some (some ⟨0x080002, 0x00002A, 7⟩, some 0x80000007) := by
  decide
theorem test_select_entry : effect (one 0x080002 0x00002A 0 [0x60041] 0) 0x10000000 = some (some ⟨0x030020, 0, 0⟩, some 0x12030020) := by
  decide

/-! ### SEED (V-SE) -/

theorem test_seed_draw : effect (one 0x030020 0 0 [] 0xABB) 0x20000000 = some (some ⟨0x030020, 0xABC, 0⟩, some 0x00000ABC) := by decide
theorem test_seed_degree_1 : effect (one 1 0 0 [] 77) 0x20000000 = some (some ⟨1, 1, 0⟩, some 1) := by decide

/-! ### STEP (V-ST) -/

theorem test_step_rows :
    [stepFn 0x000001 0x080002, stepFn 0x000002 0x080002, stepFn 0x080000 0x080002, stepFn 0x0FFFFF 0x080002,
      stepFn 0x000008 0x000009, stepFn 0xFFFFFF 0xC00001, stepFn 0x800000 0xC00001, stepFn 0x03FFFF 0x030020,
      stepFn 0x000001 0x000001, stepFn 0x000003 0x000003, stepFn 0x000001 0x800000, stepFn 0xFFFFFF 0xFFFFFF] =
    [(0x000002, false), (0x000005, true), (0x000001, true), (0x0FFFFE, false),
      (0x000001, true), (0xFFFFFF, true), (0x000001, true), (0x03FFFF, true),
      (0x000001, true), (0x000002, false), (0x000002, false), (0xFFFFFE, false)] := by decide
theorem test_step_example : effect (one 0x080002 2 0) 0x30000000 = some (some ⟨0x080002, 5, 0⟩, some 0x01000005) := by decide

/-! ### LDTAPS (V-LT) -/

theorem test_ldtaps_clears : effect (one 0x080002 0x2A 0) 0x40080002 = some (some ⟨0x080002, 0, 0⟩, some 0x14080002) := by decide
theorem test_ldtaps_top : effect (one 0 0 0) 0x40800000 = some (some ⟨0x800000, 0, 0⟩, some 0x18800000) := by decide

/-! ### LDREG (V-LR) -/

theorem test_ldreg_top : effect (one 0x080002 0 0) 0x500FFFFF = some (some ⟨0x080002, 0x0FFFFF, 0⟩, some 0x000FFFFF) := by decide
theorem test_ldreg_order : effect (one 0 0 0) 0x50000000 = some (some ⟨0, 0, 2⟩, some 0x80000002) ∧
    effect (one 9 0 0) 0x50000010 = some (some ⟨9, 0, 6⟩, some 0x80000006) := by decide

/-! ### READ (V-R) and the halted state (V-F) -/

theorem test_read_registers :
    [0x60000000#32, 0x61000000#32, 0x62000000#32, 0x63000000#32, 0x64000000#32].map
      (fun w => (effect (one 0x080002 0x2A 0) w).bind Prod.snd) =
    [some 0x00080002, some 0x00000014, some 0x0000002A, some 0, some 0] := by decide
theorem test_read_pool : effect (one 0x080002 0x2A 0 [0x1000007] 0) 0x65000000 = some (some ⟨0x080002, 0x2A, 0⟩, some 0x01000007) ∧
    effect (one 0x080002 0x2A 0 [0x60041] 0) 0x65000001 = some (some ⟨0x080002, 0x2A, 8⟩, some 0x80000008) := by decide
theorem test_halted_ldreg : effect (one 9 0 3) 0x50000001 = some (some ⟨9, 0, 3⟩, some 0x80000003) := by decide
theorem test_halted_illegal : effect (one 9 0 3) 0x00000000 = some (some ⟨9, 0, 3⟩, some 0x80000003) := by decide
theorem test_halted_read_fault : effect (one 9 0 3) 0x63000000 = some (some ⟨9, 0, 3⟩, some 0x00000003) := by decide
theorem test_halted_read_pool : effect (one 0 0 7) 0x65000000 = some (some ⟨0, 0, 7⟩, some 0x80000007) := by decide
theorem test_illegal_word : effect (one 0 0 0) 0x41000001 = some (some ⟨0, 0, 1⟩, some 0x80000001) := by decide
theorem test_reset_event : (got (step { one 9 0 3 with host := [.reset 0] })).map State.insts = some [⟨0, 0, 0⟩] := by decide

/-! ### The first step after reset, with a word placed by withFetchWord (V-LT, V-S1, V-SE, V-ST, V-R) -/

theorem test_first_ldtaps : firstStep 0x40080002 = some (some ⟨0x080002, 0, 0⟩, some 0x14080002) := by decide
theorem test_first_select : firstStep 0x10000000 = some (some ⟨0, 0, 7⟩, some 0x80000007) := by decide
theorem test_first_seed : firstStep 0x20000000 = some (some ⟨0, 0, 2⟩, some 0x80000002) := by decide
theorem test_first_readDeg : firstStep 0x61000000 = some (some ⟨0, 0, 0⟩, some 0) := by decide

/-! ### Witnesses: for every claim with hypotheses, a state and operands that meet them -/

/-- A state with the command `w` for port 0 as the host's next event. -/
def asked (s : State) (w : Word) : State := { s with host := [.command 0 w 5] }

theorem witness_EncodeOfDecode : decode 0x50123456#32 = some (.ldreg 0x123456) := by decide

theorem witness_IllegalWords : (asked (one 9 1 0) 0#32).host = [.command 0 0#32 5] ∧
    (asked (one 9 1 0) 0#32).insts[0]? = some ⟨9#24, 1#24, 0#4⟩ ∧ decode 0#32 = none := by decide

theorem witness_AssemblerWords : 2 ^ 24 - 1 < 2 ^ 24 ∧ 2 ^ 24 ≤ 2 ^ 24 := by decide

theorem witness_PseudoInstruction : (3 % 2 = 1 ∧ 3 ≤ 3 ∧ 3 < 2 ^ 25) ∧ (4 % 2 = 0 ∨ 4 < 3 ∨ 2 ^ 25 ≤ 4) ∧
    ((2 ^ 25 - 1) % 2 = 1 ∧ 3 ≤ 2 ^ 25 - 1 ∧ 2 ^ 25 - 1 < 2 ^ 25) := by decide

theorem witness_StepRunsDecodedCommand : (asked (one 9 1 0) 0x30000000#32).host = [.command 0 0x30000000#32 5] ∧
    decode 0x30000000#32 = some .step ∧ (asked (one 9 1 0) 0#32).host = [.command 0 0#32 5] ∧ decode 0#32 = none ∧
    (one 9 1 0).host = [] := by decide

theorem witness_MissingPortStops : ({ one 9 1 0 with port := 1 } : State).insts.length ≤ 1 ∧
    ({ one 9 1 0 with host := [.reset 1] } : State).host = [.reset 1] := by decide

theorem witness_ResetEventClearsInstance : ({ one 9 1 3 with host := [.reset 0] } : State).host = [.reset 0] ∧
    0 < ({ one 9 1 3 with host := [.reset 0] } : State).insts.length := by decide

theorem witness_ResetStateValues : 0 < Config.nInstances := Nat.succ_pos _

theorem witness_ResetIsLegal : admissiblePool [0x60041#25] = true ∧ 1 ≤ 2 := by decide

theorem witness_StepKeepsInvariant : (asked (one 9 1 0 [0x60041]) 0x30000000#32).Inv ∧
    ∃ t, step (asked (one 9 1 0 [0x60041]) 0x30000000#32) = .next t := ⟨by decide, _, rfl⟩

theorem witness_CacheNeverChanges : ∃ t, step (asked (one 9 1 0 [0x60041]) 0x30000000#32) = .next t := ⟨_, rfl⟩

theorem witness_HaltedInstanceRefuses : (one 9 1 3).insts[(one 9 1 3).port]? = some ⟨9#24, 1#24, 3#4⟩ ∧ (3#4 ≠ 0#4) ∧
    Instr.step.isRead = false ∧ (asked (one 9 1 3) 0#32).host = [.command 0 0#32 5] ∧ decode 0#32 = none := by decide

theorem witness_OnlyResetLeavesHalted : (∃ t, step (asked (one 9 1 3) 0x30000000#32) = .next t) ∧
    (asked (one 9 1 3) 0x30000000#32).insts[0]? = some ⟨9#24, 1#24, 3#4⟩ ∧
    (asked (one 9 1 3) 0x30000000#32).host.head? ≠ some (.reset 0) := ⟨⟨_, rfl⟩, by decide⟩

theorem witness_FaultCodeOfEachCommand : (one 9 1 0).insts[(one 9 1 0).port]? = some ⟨9#24, 1#24, 0#4⟩ := by decide

theorem witness_FaultsArePrecise : (one 0 0 0).insts[(one 0 0 0).port]? = some ⟨0#24, 0#24, 0#4⟩ ∧
    exec .step (one 0 0 0) = .next ((one 0 0 0).answered ⟨0, 0, 2⟩ 0x80000002#32) ∧
    ((one 0 0 0).answered ⟨0, 0, 2⟩ 0x80000002#32).responses = [] ++ [⟨0, 0x80000002#32⟩] ∧
    2 ^ 31 ≤ (0x80000002#32).toNat := ⟨by decide, next_of_got (by decide), by decide, by decide⟩

theorem witness_CommandFrame : exec .step (one 0x080002 2 0) =
    .next ((one 0x080002 2 0).answered ⟨0x080002, 5, 0⟩ 0x01000005#32) := next_of_got (by decide)

theorem witness_RegisterFrame : exec .readReg (one 9 1 3) = .next ((one 9 1 3).answered ⟨9, 1, 3⟩ 1#32) ∧
    (one 9 1 3).insts[0]? = some ⟨9#24, 1#24, 3#4⟩ ∧
    ((one 9 1 3).answered ⟨9, 1, 3⟩ 1#32).insts[0]? = some ⟨9#24, 1#24, 3#4⟩ ∧ Instr.readReg ≠ .select ∧
    Instr.readReg.isRead = true := ⟨next_of_got (by decide), by decide⟩

theorem witness_ReadsAreIdempotent : Instr.readReg.isRead = true ∧
    exec .readReg (one 9 1 0) = .next ((one 9 1 0).replied 1#32) ∧
    ((one 9 1 0).replied 1#32).responses = [] ++ [⟨0, 1#32⟩] ∧ (1#32).toNat < 2 ^ 31 :=
  ⟨rfl, next_of_got (by decide), by decide, by decide⟩

theorem witness_SelectConfigures : (one 9 1 0 [0x60041]).insts[0]? = some ⟨9#24, 1#24, 0#4⟩ ∧
    admissiblePool (one 9 1 0 [0x60041]).pool = true ∧ (one 9 1 0 [0x60041]).pool ≠ [] := by decide

theorem witness_SelectAdmitsEveryIndex : (one 9 1 0 [0x60041, 0x1000007]).insts[0]? = some ⟨9#24, 1#24, 0#4⟩ ∧
    (one 9 1 0 [0x60041, 0x1000007]).pool[1]? = some 0x1000007#25 ∧
    2 ^ 24 ≤ (0x1000007#25).toNat ∧ (0x1000007#25).toNat < 2 ^ 25 := by decide

theorem witness_SelectFaultsOnEmptyPool : (one 9 1 0).insts[0]? = some ⟨9#24, 1#24, 0#4⟩ ∧ (one 9 1 0).pool = [] := by decide

theorem witness_AdmissibleTapMask : admissibleEntry 0x60041#25 = true ∧ admissibleEntry 0x1000007#25 = true := by decide

theorem witness_StepAdvancesRegister : (one 0x080002 2 0).insts[0]? = some ⟨0x080002#24, 2#24, 0#4⟩ ∧
    2 ^ 19 ≤ (0x080002#24).toNat ∧ (0x080002#24).toNat < 2 ^ 20 ∧ 2#24 ≠ 0#24 := by decide

/-- The ends of the range: degree 1 and degree 24. -/
theorem witness_StepAdvancesRegister_ends : (one 1 1 0).insts[0]? = some ⟨1#24, 1#24, 0#4⟩ ∧
    2 ^ 0 ≤ (1#24).toNat ∧ (1#24).toNat < 2 ^ 1 ∧ 1#24 ≠ 0#24 ∧
    (one 0xC00001 0x800000 0).insts[0]? = some ⟨0xC00001#24, 0x800000#24, 0#4⟩ ∧
    2 ^ 23 ≤ (0xC00001#24).toNat ∧ (0xC00001#24).toNat < 2 ^ 24 ∧ 0x800000#24 ≠ 0#24 := by decide

theorem witness_StepFaults : (one 0 0 0).insts[0]? = some ⟨0#24, 0#24, 0#4⟩ ∧
    (one 9 0 0).insts[0]? = some ⟨9#24, 0#24, 0#4⟩ ∧ 9#24 ≠ 0#24 := by decide

theorem witness_LdtapsLoadsMask : (one 9 1 0).insts[0]? = some ⟨9#24, 1#24, 0#4⟩ ∧
    2 ^ 23 ≤ (0xFFFFFF#24).toNat ∧ (0xFFFFFF#24).toNat < 2 ^ 24 ∧
    2 ^ 0 ≤ (1#24).toNat ∧ (1#24).toNat < 2 ^ 1 := by decide

theorem witness_LdtapsZeroFaults : (one 9 1 0).insts[0]? = some ⟨9#24, 1#24, 0#4⟩ := by decide

theorem witness_LdregLoadsValue : (one 9 1 0).insts[0]? = some ⟨9#24, 1#24, 0#4⟩ ∧ 2 ^ 3 ≤ (9#24).toNat ∧
    (9#24).toNat < 2 ^ 4 ∧ 15#24 ≠ 0#24 ∧ (15#24).toNat < 2 ^ 4 := by decide

theorem witness_LdregFaults : (one 0 0 0).insts[0]? = some ⟨0#24, 0#24, 0#4⟩ ∧
    (one 9 1 0).insts[0]? = some ⟨9#24, 1#24, 0#4⟩ ∧ 9#24 ≠ 0#24 ∧
    2 ^ 3 ≤ (9#24).toNat ∧ (9#24).toNat < 2 ^ 4 ∧ 2 ^ 4 ≤ (16#24).toNat := by decide

theorem witness_SeedLoadsDrawnValue : (one 9 1 0).insts[0]? = some ⟨9#24, 1#24, 0#4⟩ ∧ 2 ^ 3 ≤ (9#24).toNat ∧
    (9#24).toNat < 2 ^ 4 ∧ 1 ≤ (1#24).toNat ∧ (1#24).toNat < 2 ^ 4 ∧ 1 ≤ (15#24).toNat ∧ (15#24).toNat < 2 ^ 4 := by decide

theorem witness_SeedFaultsUnconfigured : (one 0 0 0).insts[0]? = some ⟨0#24, 0#24, 0#4⟩ := by decide

theorem witness_ReconfigurationUnseeds : (one 3 1 0).insts[0]? = some ⟨3#24, 1#24, 0#4⟩ ∧
    exec (.ldtaps 9) (one 3 1 0) = .next ((one 3 1 0).answered ⟨9, 0, 0⟩ 0x04000009#32) ∧
    ((one 3 1 0).answered ⟨9, 0, 0⟩ 0x04000009#32).insts[0]? = some ⟨9#24, 0#24, 0#4⟩ :=
  ⟨by decide, next_of_got (by decide), by decide⟩

theorem witness_ReconfigurationUnseeds_select : (one 3 1 0 [0x60041]).insts[0]? = some ⟨3#24, 1#24, 0#4⟩ ∧
    admissiblePool (one 3 1 0 [0x60041]).pool = true ∧
    exec .select (one 3 1 0 [0x60041]) = .next ((one 3 1 0 [0x60041]).answered ⟨0x030020, 0, 0⟩ 0x12030020#32) ∧
    ((one 3 1 0 [0x60041]).answered ⟨0x030020, 0, 0⟩ 0x12030020#32).insts[0]? = some ⟨0x030020#24, 0#24, 0#4⟩ :=
  ⟨by decide, by decide, next_of_got (by decide), by decide⟩

theorem witness_StepIsDeterministic : (one 9 1 0).insts[0]? = some ⟨9#24, 1#24, 0#4⟩ ∧
    (one 9 1 0 [0x60041] 7).insts[0]? = some ⟨9#24, 1#24, 0#4⟩ ∧ Instr.readReg ≠ .select ∧ Instr.readReg ≠ .seed := by decide

theorem witness_ReadRegRecoversOutput : (one 9 1 0).insts[0]? = some ⟨9#24, 1#24, 0#4⟩ ∧ 9#24 ≠ 0#24 ∧ 1#24 ≠ 0#24 := by decide

theorem witness_ReadAnswersRegister : (one 0 0 3).insts[0]? = some ⟨0#24, 0#24, 3#4⟩ ∧ (one 0 0 3).pool.length ≤ 2 ^ 24 ∧
    (one 0xC00001 1 3).insts[0]? = some ⟨0xC00001#24, 1#24, 3#4⟩ ∧
    2 ^ 23 ≤ (0xC00001#24).toNat ∧ (0xC00001#24).toNat < 2 ^ 24 := by decide

theorem witness_ReadPoolAnswersEntry : (one 9 1 3 [0x60041]).insts[0]? = some ⟨9#24, 1#24, 3#4⟩ ∧
    (one 9 1 3 [0x60041]).pool[(0#24).toNat]? = some 0x60041#25 := by decide

theorem witness_ReadPoolPastEnd : (one 9 1 3 [0x60041]).insts[0]? = some ⟨9#24, 1#24, 3#4⟩ ∧ 3#4 ≠ 0#4 ∧
    (one 9 1 3 [0x60041]).pool.length ≤ (1#24).toNat ∧ (one 9 1 0 [0x60041]).insts[0]? = some ⟨9#24, 1#24, 0#4⟩ ∧
    (one 9 1 0 [0x60041]).pool.length ≤ (1#24).toNat := by decide

/-- Two instances, the second addressed. -/
def two : State := { one 9 1 0 with insts := [⟨3, 1, 2⟩, ⟨9, 1, 0⟩], port := 1 }

theorem witness_CommandSeesItsInstanceOnly : two.insts[two.port]? = some ⟨9#24, 1#24, 0#4⟩ ∧
    (one 9 1 0).insts[(one 9 1 0).port]? = some ⟨9#24, 1#24, 0#4⟩ ∧ two.pool = (one 9 1 0).pool ∧
    two.draw = (one 9 1 0).draw := by decide

theorem witness_InterleavingIsInvisible :
    ∃ t, runAll { two with host := [.command 1 0x30000000#32 0, .reset 0, .command 0 0x40000009#32 0, .command 1 0x62000000#32 0] } =
      .next t := ⟨_, rfl⟩

/-- R188: instance 1 answers two commands, is reset, and answers two more; then instance 0 is given a command. -/
def busy : State :=
  { two with host := [.command 1 0x30000000#32 0, .command 1 0x63000000#32 0, .reset 1, .command 1 0x40000009#32 0,
      .command 1 0x20000000#32 4, .command 0 0x30000000#32 0] }

theorem test_run_since_reset : (got (runAll busy)).map (fun t => (t.runOf 1, t.responses.length)) =
    some ([⟨0x40000009#32, none, 0x04000009#32⟩, ⟨0x20000000#32, some 5, 5#32⟩], 5) := by decide

theorem test_end_observation : endObservation busy 1 = some ⟨9#24, 5#24, 0#4, [0x04000009#32, 5#32]⟩ ∧
    (got (runAll busy)).map (fun t => (t.endedInFault 0, t.endedInFault 1)) = some (true, false) := by decide

theorem test_run_of_select : (got (runAll { one 0 0 0 [0x60041, 0x1000007] with host := [.command 0 0x10000000#32 3] })).map
    (fun t => t.runOf 0) = some [⟨0x10000000#32, some 1, 0x18800003#32⟩] := by decide

theorem witness_RunIsCutAtReset : ({ two with host := [.reset 1] } : State).host = [.reset 1] ∧
    (∃ t, step { two with host := [.reset 1] } = .next t) ∧ (asked (one 9 1 0) 0x30000000#32).host = [.command 0 0x30000000#32 5] ∧
    ∃ t, step (asked (one 9 1 0) 0x30000000#32) = .next t := ⟨by decide, ⟨_, rfl⟩, by decide, _, rfl⟩

theorem witness_DrawTakenIsDrawUsed : (asked (one 9 1 0) 0x20000000#32).host = [.command 0 0x20000000#32 5] ∧
    step (asked (one 9 1 0) 0x20000000#32) =
      .next ((one 9 1 0).accept 0 0x20000000#32 5 [] |>.answered ⟨9, 6, 0⟩ 6#32) ∧
    (asked (one 9 1 0) 0x20000000#32).insts[0]? = some ⟨9#24, 1#24, 0#4⟩ ∧
    ((one 9 1 0).accept 0 0x20000000#32 5 [] |>.answered ⟨9, 6, 0⟩ 6#32).insts[0]? = some ⟨9#24, 6#24, 0#4⟩ ∧
    ((one 9 1 0).accept 0 0x20000000#32 5 [] |>.answered ⟨9, 6, 0⟩ 6#32).runOf 0 =
      (asked (one 9 1 0) 0x20000000#32).runOf 0 ++ [⟨0x20000000#32, some 6, 6#32⟩] :=
  ⟨by decide, next_of_got (by decide), by decide, by decide, by decide⟩

theorem witness_DrawTakenIsDrawUsed_none : (asked (one 9 1 0) 0x30000000#32).host = [.command 0 0x30000000#32 5] ∧
    step (asked (one 9 1 0) 0x30000000#32) =
      .next ((one 9 1 0).accept 0 0x30000000#32 5 [] |>.answered ⟨9, 3, 0⟩ 0x01000003#32) ∧
    ((one 9 1 0).accept 0 0x30000000#32 5 [] |>.answered ⟨9, 3, 0⟩ 0x01000003#32).runOf 0 =
      (asked (one 9 1 0) 0x30000000#32).runOf 0 ++ [⟨0x30000000#32, none, 0x01000003#32⟩] :=
  ⟨by decide, next_of_got (by decide), by decide⟩

theorem witness_EndOfRun : (∃ t, runAll busy = .next t ∧ t.insts[1]? = some ⟨9#24, 5#24, 0#4⟩) ∧
    (asked two 0x30000000#32).runEnded 1 = true ∧ ∃ t, step (asked two 0x30000000#32) = .next t :=
  ⟨⟨_, rfl, by decide⟩, by decide, _, rfl⟩

theorem witness_EndObservationForgetsBeforeReset :
    busy.host = [.command 1 0x30000000#32 0, .command 1 0x63000000#32 0] ++ .reset 1 ::
      [.command 1 0x40000009#32 0, .command 1 0x20000000#32 4, .command 0 0x30000000#32 0] ∧
    ∃ t, runAll busy = .next t := ⟨rfl, _, rfl⟩

theorem witness_DegreeOfTapMask : 1#24 ≠ 0#24 ∧ 0x800000#24 ≠ 0#24 := by decide

theorem witness_StepShiftsTowardHighBit : 9#24 ≠ 0#24 ∧ 0 + 2 ≤ deg 9#24 ∧ 2 + 2 ≤ deg 9#24 ∧ deg 9#24 ≤ 4 := by decide

theorem witness_OutputIsFeedback : 1#24 ≠ 0#24 := by decide

theorem witness_StepFnIsBijection : 1#24 ≠ 0#24 ∧ (1#24).toNat < 2 ^ deg 1#24 := by decide

theorem witness_StepFnIsLinear : popcount 0xC00001#24 % 2 = 1 ∧ popcount 1#24 % 2 = 1 ∧ admissibleEntry 0x1800003#25 = true := by decide

theorem witness_StepNeverUnseeds : (one 9 8 0).insts[0]? = some ⟨9#24, 8#24, 0#4⟩ ∧ (8#24).toNat < 2 ^ deg 9#24 ∧ 8#24 ≠ 0#24 ∧
    exec .step (one 9 8 0) = .next ((one 9 8 0).answered ⟨9, 1, 0⟩ 0x01000001#32) ∧
    ((one 9 8 0).answered ⟨9, 1, 0⟩ 0x01000001#32).insts[0]? = some ⟨9#24, 1#24, 0#4⟩ :=
  ⟨by decide, by decide, by decide, next_of_got (by decide), by decide⟩

theorem witness_Gf2ModIsTheLoop : 1 ≤ 3 ∧ 0x13 ≠ 0 ∧ msb 3 ≤ msb 0x13 := by decide

theorem witness_TrialDivision : Config.trialMin % 2 = 1 := by decide

theorem witness_CandidatesOfDegree : 1 ≤ 18 := by decide

theorem witness_NormativePoolIsEmpty : 18 ≤ 18 ∧ 0x70001 ∈ candidates 18 := by decide

end Sys2Proof.Tests
end

section
/-! The frame of every command (00_scope.md R12, 60_exceptions.md R160). -/

namespace Sys2Proof
open Sys2Proof.Machine

/-- Settles O19: by `exec_shape` a command does no more than write the addressed instance's registers and send one
response, and each of the two operations has its own frame. -/
theorem commandFrame : Obligations.CommandFrame := by
  intro i s t h
  obtain ⟨_, r', w, _, rfl⟩ := exec_shape h
  have others : ∀ k, k ≠ s.port → ((s.putInst r').respond w).insts[k]? = s.insts[k]? :=
    fun k hk => s.getElem?_putInst_of_ne r' k hk
  have count : ((s.putInst r').respond w).insts.length = s.insts.length := by simp
  exact ⟨others, count, rfl, rfl, rfl, rfl, rfl, w, rfl, State.respond_responses _ w⟩

end Sys2Proof
end

section
/-! SUPPORT. What one command does to the registers of its instance, by how its rule ends, and what each rule keeps. -/

namespace Sys2Proof.Machine

/-- What a command can do, and when: a halted instance keeps its registers (60_exceptions.md R152, R154); a running one
carries out the command's rule, which completes or raises a fault (R151). -/
theorem exec_cases {i : Instr} {s t : State} (h : exec i s = .next t) :
    ∃ r r' w, s.current = some r ∧ t = (s.putInst r').respond w ∧
      ((r.fault ≠ 0#4 ∧ r' = r) ∨
       (r.fault = 0#4 ∧ ruleOf i s r = .completes r' w) ∨
       (r.fault = 0#4 ∧ ∃ c, ruleOf i s r = .raises c ∧ r' = { r with fault := causeCode c })) := by
  rw [exec_eq_rule] at h
  split at h
  next hi =>
    obtain ⟨r, hc, ⟨r', w, hrule, rfl⟩ | ⟨c, hrule, rfl⟩⟩ := runRead_cases h <;> by_cases hf : r.fault = 0#4
    · exact ⟨r, r', w, hc, rfl, .inr (.inl ⟨hf, hrule⟩)⟩
    · exact ⟨r, r', w, hc, rfl, .inl ⟨hf, read_rule_keeps hi hrule⟩⟩
    · exact ⟨r, _, _, hc, raiseFault_of_running c r s hf, .inr (.inr ⟨hf, c, hrule, rfl⟩)⟩
    · exact ⟨r, _, _, hc, raiseFault_of_halted c r s hf, .inl ⟨hf, rfl⟩⟩
  next =>
    obtain ⟨r, hc, ⟨hf, rfl⟩ | ⟨hf, r', w, hrule, rfl⟩ | ⟨hf, c, hrule, rfl⟩⟩ := runCommand_cases h
    · exact ⟨r, _, _, hc, rfl, .inl ⟨hf, rfl⟩⟩
    · exact ⟨r, _, _, hc, rfl, .inr (.inl ⟨hf, hrule⟩)⟩
    · exact ⟨r, _, _, hc, rfl, .inr (.inr ⟨hf, c, hrule, rfl⟩)⟩

/-- `exec_cases` for the registers `r` of the addressed instance before the command and `r'` after it. -/
theorem exec_registers {i : Instr} {s t : State} {r r' : Inst} (h : exec i s = .next t)
    (hr : s.insts[s.port]? = some r) (hr' : t.insts[s.port]? = some r') :
    (r.fault ≠ 0#4 ∧ r' = r) ∨
    (r.fault = 0#4 ∧ ∃ w, ruleOf i s r = .completes r' w) ∨
    (r.fault = 0#4 ∧ ∃ c, ruleOf i s r = .raises c ∧ r' = { r with fault := causeCode c }) := by
  obtain ⟨q, q', w, hc, rfl, hcases⟩ := exec_cases h
  obtain rfl : q = r := Option.some.inj (hc.symm.trans hr)
  obtain rfl : q' = r' := Option.some.inj ((s.current_putInst q q' hc).symm.trans hr')
  obtain hkept | ⟨hf, hrule⟩ | hraised := hcases
  · exact .inl hkept
  · exact .inr (.inl ⟨hf, w, hrule⟩)
  · exact .inr (.inr hraised)

/-- Only the rules of SELECT and LDTAPS write `TAPS` (10_state.md R21). -/
theorem rule_keeps_taps {i : Instr} {s : State} {r r' : Inst} {w : Word} (hs : i ≠ .select)
    (hl : ∀ imm, i ≠ .ldtaps imm) (h : ruleOf i s r = .completes r' w) : r'.taps = r.taps := by
  cases i with
  | select => exact absurd rfl hs
  | ldtaps imm => exact absurd rfl (hl imm)
  | seed => simp only [ruleOf, seedRule] at h; split_ifs at h; cases h; rfl
  | step => simp only [ruleOf, stepRule] at h; split_ifs at h; cases h; rfl
  | ldreg imm => simp only [ruleOf, ldregRule] at h; split_ifs at h; cases h; rfl
  | readTaps | readDeg | readReg | readFault | readPoolcount | readPool => rw [read_rule_keeps rfl h]

/-- A rule that completes keeps `REG < 2^DEG` and `FAULT` (10_state.md R24): SELECT and LDTAPS clear `REG`, LDREG checks
its range, a drawn seed and a step's result fit in `DEG` bits. -/
theorem rule_keeps_legal {i : Instr} {s : State} {r r' : Inst} {w : Word} (hr : r.Legal)
    (h : ruleOf i s r = .completes r' w) : r'.Legal := by
  cases i with
  | select =>
    simp only [ruleOf, selectRule] at h
    split_ifs at h
    cases h
    exact ⟨Nat.two_pow_pos _, hr.2⟩
  | ldtaps imm =>
    simp only [ruleOf, ldtapsRule] at h
    split_ifs at h
    cases h
    exact ⟨Nat.two_pow_pos _, hr.2⟩
  | ldreg imm =>
    simp only [ruleOf, ldregRule] at h
    split_ifs at h with _ _ hrange
    cases h
    exact ⟨Nat.lt_of_not_le hrange, hr.2⟩
  | seed =>
    simp only [ruleOf, seedRule] at h
    split_ifs at h with hdeg
    cases h
    exact ⟨(drawSeed_range _ (Nat.pos_of_ne_zero hdeg) (deg_le _)).2, hr.2⟩
  | step =>
    simp only [ruleOf, stepRule] at h
    split_ifs at h
    cases h
    exact ⟨stepFn_lt _ _, hr.2⟩
  | readTaps | readDeg | readReg | readFault | readPoolcount | readPool => rwa [read_rule_keeps rfl h]

end Sys2Proof.Machine
end

section
/-! The invariant of the block (10_state.md R24, 60_exceptions.md R150, 40_polynomial_cache.md R88) and the constancy of the
cache (R26, 20_memory.md R50). -/

namespace Sys2Proof.Machine

theorem Inst.reset_legal : Inst.reset.Legal := by decide

/-- Fault entry keeps a legal instance legal: only codes 1 to 8 are raised (60_exceptions.md R150). -/
theorem Inst.Legal.raised {r : Inst} (hr : r.Legal) (c : Cause) : ({ r with fault := causeCode c } : Inst).Legal :=
  ⟨hr.1, (causeCode_range c).2⟩

/-- Writing a legal instance keeps all instances legal. -/
theorem legal_set {l : List Inst} {r : Inst} (hl : ∀ q ∈ l, q.Legal) (hr : r.Legal) (k : Nat) :
    ∀ q ∈ l.set k r, q.Legal := by
  intro q hq
  obtain hq | rfl := List.mem_or_eq_of_mem_set hq
  · exact hl q hq
  · exact hr

/-- An accepted word, decoded or illegal, leaves a legal instance legal. -/
theorem execWord_keeps_legal {w : Word} {s t : State} (hs : ∀ r ∈ s.insts, r.Legal) (h : execWord w s = .next t) :
    ∀ r ∈ t.insts, r.Legal := by
  have current_legal : ∀ r, s.current = some r → r.Legal := fun r hc => hs r (List.mem_of_getElem? hc)
  unfold execWord at h
  split at h
  next =>
    obtain ⟨r, hc, ⟨-, rfl⟩ | ⟨-, _, _, hrule, -⟩ | ⟨-, c, -, rfl⟩⟩ := runCommand_cases h
    · exact legal_set hs (current_legal r hc) _
    · cases hrule
    · exact legal_set hs ((current_legal r hc).raised c) _
  next i =>
    obtain ⟨r, r', v, hc, rfl, ⟨-, rfl⟩ | ⟨-, hrule⟩ | ⟨-, c, -, rfl⟩⟩ := exec_cases h
    · exact legal_set hs (current_legal _ hc) _
    · exact legal_set hs (rule_keeps_legal (current_legal r hc) hrule) _
    · exact legal_set hs ((current_legal r hc).raised c) _

theorem step_keeps_legal {s t : State} (hs : ∀ r ∈ s.insts, r.Legal) (h : step s = .next t) :
    ∀ r ∈ t.insts, r.Legal := by
  obtain ⟨-, rfl⟩ | ⟨p, rest, -, hreset⟩ | ⟨p, w, d, rest, -, hword⟩ := step_cases h
  · exact hs
  · obtain ⟨-, rfl⟩ := resetPort_cases hreset
    exact legal_set hs Inst.reset_legal p
  · exact execWord_keeps_legal (s := s.accept p w d rest) hs hword

theorem step_keeps_pool_and_count {s t : State} (h : step s = .next t) :
    t.pool = s.pool ∧ t.insts.length = s.insts.length := by
  obtain ⟨-, rfl⟩ | ⟨p, rest, -, hreset⟩ | ⟨p, w, d, rest, -, hword⟩ := step_cases h
  · exact ⟨rfl, rfl⟩
  · obtain ⟨-, rfl⟩ := resetPort_cases hreset
    exact ⟨rfl, List.length_set⟩
  · obtain ⟨-, r', v, -, rfl⟩ := execWord_shape hword
    exact ⟨rfl, List.length_set⟩

theorem powerUp_inv {pool : List Poly} {n : Nat} (hp : admissiblePool pool = true) (hn : 1 ≤ n) :
    (State.powerUp pool n).Inv := by
  refine ⟨?_, ?_, hp⟩
  · intro r hr
    rw [List.eq_of_mem_replicate hr]
    exact Inst.reset_legal
  · simp only [State.powerUp_insts, ne_eq, List.replicate_eq_nil_iff]
    omega

end Sys2Proof.Machine

namespace Sys2Proof
open Sys2Proof.Machine

/-- Settles O13: the instances by `step_keeps_legal`, the other two parts by what a step never touches. -/
theorem stepKeepsInvariant : Obligations.StepKeepsInvariant := by
  intro s t ⟨hlegal, hne, hpool⟩ h
  obtain ⟨hp, hlen⟩ := step_keeps_pool_and_count h
  refine ⟨step_keeps_legal hlegal h, ?_, hp ▸ hpool⟩
  rwa [← List.length_pos_iff, hlen, List.length_pos_iff]

/-- Settles O14: by the cases of a step. -/
theorem cacheNeverChanges : Obligations.CacheNeverChanges := fun _ _ => step_keeps_pool_and_count

/-- Settles O12: the normative pool is the empty one, which is admissible. -/
theorem resetIsLegal : Obligations.ResetIsLegal :=
  ⟨powerUp_inv (by decide) (Nat.succ_pos _), fun _ _ => powerUp_inv⟩

/-- Settles O11: from the definition of a block just built. -/
theorem resetStateValues : Obligations.ResetStateValues :=
  ⟨fun _ hk => List.getElem?_replicate_of_lt hk, Nat.succ_pos _, List.length_replicate, rfl, rfl, rfl⟩

end Sys2Proof
end

section
/-! Which registers a command writes, and what decides it (10_state.md R20, R21, R23, R25). -/

namespace Sys2Proof.Machine

/-- A rule sees the cache and the draw, and nothing else of the state. -/
theorem ruleOf_congr (i : Instr) {s s' : State} (hp : s.pool = s'.pool) (hd : s.draw = s'.draw) :
    ruleOf i s = ruleOf i s' := by
  have hcount : s.poolCount = s'.poolCount := congrArg List.length hp
  have hread : s.poolRead = s'.poolRead := by unfold State.poolRead; rw [hp]
  cases i with
  | select => funext r; simp only [ruleOf, selectRule, hcount, hread, hd]
  | seed => simp only [ruleOf, hd]
  | readPoolcount => simp only [ruleOf, hcount]
  | readPool imm => funext r; simp only [ruleOf, readPoolRule, hcount, hread]
  | step | ldtaps | ldreg | readTaps | readDeg | readReg | readFault => rfl

/-- What an ending writes and answers is decided by the ending and the registers alone. -/
theorem settle_eq_answered (r : Inst) (e : Ending) : ∃ q w, ∀ s : State, settle r s e = s.answered q w := by
  cases e with
  | completes q w => exact ⟨q, w, fun _ => rfl⟩
  | raises c => exact ⟨_, _, fun _ => rfl⟩

/-- A refusal, as an answer that writes the registers back. -/
theorem respond_eq_answered {s : State} {r : Inst} (hc : s.current = some r) (w : Word) :
    s.respond w = s.answered r w := by
  rw [← respond_putInst_eq_answered, s.putInst_current r hc]

end Sys2Proof.Machine

namespace Sys2Proof
open Sys2Proof.Machine

/-- Settles O20: a refusal and a fault keep `TAPS` and `REG`, so only a rule that completes can write them. -/
theorem registerFrame : Obligations.RegisterFrame := by
  intro i s t r r' h hr hr'
  obtain ⟨hf, rfl⟩ | ⟨hf, w, hrule⟩ | ⟨hf, c, -, rfl⟩ := exec_registers h hr hr'
  · exact ⟨fun _ _ => rfl, fun _ => rfl, fun _ => rfl⟩
  · exact ⟨fun hs hl => rule_keeps_taps hs hl hrule, fun hi => by rw [read_rule_keeps hi hrule], fun hn => absurd hf hn⟩
  · exact ⟨fun _ _ => rfl, fun _ => rfl, fun hn => absurd hf hn⟩

/-- Settles O40: the halted check sees the registers only, the rule also the cache and the draw (`ruleOf_congr`), and how
the rule's ending is carried out depends on nothing more (`settle_eq_answered`). -/
theorem commandSeesItsInstanceOnly : Obligations.CommandSeesItsInstanceOnly := by
  intro i s s' r (hr : s.current = some r) (hr' : s'.current = some r) hp hd
  rw [exec_of_current hr, exec_of_current hr', ruleOf_congr i hp hd]
  split
  next => exact ⟨r, _, by rw [respond_eq_answered hr], by rw [respond_eq_answered hr']⟩
  next =>
    obtain ⟨q, w, hsettle⟩ := settle_eq_answered r (ruleOf i s' r)
    exact ⟨q, w, by rw [hsettle], by rw [hsettle]⟩

end Sys2Proof
end

section
/-! The tap mask and its degree (10_state.md R21, R22, R27). -/

namespace Sys2Proof.Machine

/-- What `admissibleEntry` checks, part by part (10_state.md R27). -/
theorem admissibleEntry_iff (p : Poly) :
    admissibleEntry p = true ↔ 18 ≤ polyDeg p ∧ polyDeg p ≤ 24 ∧ p.getLsbD 0 = true ∧ popcount p = 4 := by
  simp only [admissibleEntry, Bool.and_eq_true, decide_eq_true_eq, and_assoc]
  exact Iff.rfl

/-- `P >> 1` drops bit 0 and keeps every other set bit. -/
theorem popcount_eq_tapsOf_add (p : Poly) : popcount p = popcount (tapsOf p) + (p.getLsbD 0).toNat := by
  have hbit : ∀ i ∈ List.range 24, ((fun i => p.getLsbD i) ∘ Nat.succ) i = true ↔ (tapsOf p).getLsbD i = true := by
    intro i hi
    simp [tapsOf, List.mem_range.mp hi, Nat.add_comm]
  rw [popcount, List.range_succ_eq_map, List.countP_cons, List.countP_map, List.countP_congr hbit, popcount]
  cases p.getLsbD 0 <;> rfl

/-- With bit 0 set, a polynomial is its tap mask with the constant term restored. -/
theorem tapsOf_shift_or_one {p : Poly} (h0 : p.getLsbD 0 = true) : (tapsOf p).toNat <<< 1 ||| 1 = p.toNat := by
  have hodd : p.toNat % 2 = 1 := by simpa [BitVec.getLsbD] using h0
  rw [shift_or_one, tapsOf_toNat]
  omega

theorem deg_tapsOf {p : Poly} (h0 : p.getLsbD 0 = true) : deg (tapsOf p) = polyDeg p := by
  rw [deg, tapsOf_shift_or_one h0, polyDeg]

end Sys2Proof.Machine

namespace Sys2Proof
open Sys2Proof.Machine

/-- Settles O25: bit 0 of the entry is the constant term that `P >> 1` drops; the other three terms stay. -/
theorem admissibleTapMask : Obligations.AdmissibleTapMask := by
  intro P hP
  obtain ⟨hmin, hmax, h0, hcount⟩ := (admissibleEntry_iff P).mp hP
  have hthree : popcount (tapsOf P) = 3 := by
    have := popcount_eq_tapsOf_add P
    rw [h0, hcount, Bool.toNat_true] at this
    omega
  rw [deg_tapsOf h0]
  exact ⟨hthree, tapsOf_shift_or_one h0, rfl, hmin, hmax⟩

/-- Settles O42: from the bounds and the highest set bit of a tap mask. -/
theorem degreeOfTapMask : Obligations.DegreeOfTapMask := by
  refine ⟨deg_zero, fun t => ⟨deg_le t, fun ht => ?_⟩⟩
  have hpos : 1 ≤ deg t := Nat.one_le_iff_ne_zero.mpr fun h0 => ht ((deg_eq_zero_iff t).mp h0)
  obtain ⟨hlo, hhi⟩ := taps_bounds t ht
  exact ⟨hpos, hlo, hhi, taps_top_bit t ht⟩

end Sys2Proof
end

section
/-! STEP: what it completes with, and that it never loses the state of the register (41_lfsr_engine.md R112, R113). -/

namespace Sys2Proof.Machine

/-- The rule of STEP completes when the instance is configured and seeded (41_lfsr_engine.md R115). -/
theorem stepRule_of_seeded {r : Inst} (ht : r.taps ≠ 0#24) (hr : r.reg ≠ 0#24) :
    stepRule r = .completes { r with reg := (stepFn r.reg r.taps).1 }
      (stepResponse (stepFn r.reg r.taps).2 (stepFn r.reg r.taps).1) := by
  simp [stepRule, deg_eq_zero_iff, ht, hr]

/-- The output bit is bit 0 of the new register (41_lfsr_engine.md R112). -/
theorem stepFn_out (r t : Word24) : (stepFn r t).2 = (stepFn r t).1.getLsbD 0 := rfl

/-- `OUT` is bit 24 of the answer to a STEP (30_encoding.md R66). -/
theorem getLsbD_stepResponse_out (out : Bool) (reg : Word24) : (stepResponse out reg).getLsbD 24 = out := by
  simp [stepResponse]

/-- The addressed instance after an answer holds what was written. -/
theorem State.current_answered {s : State} {r : Inst} (hc : s.current = some r) (r' : Inst) (w : Word) :
    (s.answered r' w).current = some r' := s.current_putInst r r' hc

/-- A READ whose rule completes answers the value, on a halted instance too. -/
theorem exec_read_of_completes {i : Instr} {s : State} {r : Inst} {w : Word} (hi : i.isRead = true)
    (hc : s.current = some r) (h : ruleOf i s r = .completes r w) : exec i s = .next (s.replied w) := by
  rw [exec_of_current hc, h, settle_completes, s.putInst_current r hc, respond_eq_replied]
  exact if_neg (by simp [hi])

theorem popcount_twoPow {k : Nat} (hk : k < 24) : popcount (BitVec.twoPow 24 k) = 1 := by
  revert k
  decide

/-- Bit `DEG - 1` is tapped, so a register with no other bit set gives feedback 1 (10_state.md R22). -/
theorem feedback_of_top_bit_only {r t : Word24} (ht : t ≠ 0#24) (hset : r.getLsbD (deg t - 1) = true)
    (hrest : ∀ i, i ≠ deg t - 1 → r.getLsbD i = false) : feedback r t = true := by
  have hd24 := deg_le t
  have htapped : r &&& t = BitVec.twoPow 24 (deg t - 1) := by
    apply BitVec.eq_of_getLsbD_eq
    intro i hi
    rw [BitVec.getLsbD_and, BitVec.getLsbD_twoPow]
    by_cases hitop : i = deg t - 1
    · simp [hitop, hset, taps_top_bit t ht, show deg t - 1 < 24 by omega]
    · simp [hrest i hitop, Ne.symm hitop]
  rw [feedback, htapped, parity, popcount_twoPow (by omega)]
  rfl

/-- Only the zero register steps to zero (41_lfsr_engine.md R113): a step keeps every bit below bit `DEG - 1`, one place
higher, and if bit `DEG - 1`, which the shift drops, is the only one set then the feedback bit is 1. -/
theorem eq_zero_of_stepFn_eq_zero {r t : Word24} (hr : r.toNat < 2 ^ deg t) (h : (stepFn r t).1 = 0#24) : r = 0#24 := by
  by_cases ht : t = 0#24
  · subst ht
    exact BitVec.eq_of_toNat_eq (by simpa [deg_zero] using hr)
  have hd : 0 < deg t := Nat.pos_of_ne_zero fun h0 => ht ((deg_eq_zero_iff t).mp h0)
  have hd24 := deg_le t
  have hbits : ∀ i, (stepFn r t).1.getLsbD i = false := by simp [h]
  simp only [getLsbD_stepFn] at hbits
  have hrest : ∀ i, i ≠ deg t - 1 → r.getLsbD i = false := by
    intro i hi
    obtain hlow | hhigh := Nat.lt_or_ge i (deg t)
    · simpa [show i + 1 < 24 by omega, show i + 1 < deg t by omega] using hbits (i + 1)
    · exact (lt_two_pow_iff_high_bits r _).mp hr i hhigh
  have htop : r.getLsbD (deg t - 1) = false := by
    rw [← Bool.not_eq_true]
    intro hset
    simpa [hd, feedback_of_top_bit_only ht hset hrest] using hbits 0
  apply BitVec.eq_of_getLsbD_eq
  intro i _
  by_cases hitop : i = deg t - 1
  · rw [hitop, htop, BitVec.getLsbD_zero]
  · rw [hrest i hitop, BitVec.getLsbD_zero]

end Sys2Proof.Machine

namespace Sys2Proof
open Sys2Proof.Machine

/-- Settles O36: STEP writes the register whose bit 0 it answers as `OUT`, and READ REG answers that register. -/
theorem readRegRecoversOutput : Obligations.ReadRegRecoversOutput := by
  intro s r (hc : s.current = some r) hf ht hr
  have hstep : exec .step s = .next (s.answered { r with reg := (stepFn r.reg r.taps).1 }
      (stepResponse (stepFn r.reg r.taps).2 (stepFn r.reg r.taps).1)) := by
    rw [exec_of_current hc, ruleOf, stepRule_of_seeded ht hr, settle_completes, respond_putInst_eq_answered]
    simp [hf]
  refine ⟨_, _, _, hstep, exec_read_of_completes rfl (State.current_answered hc _ _) rfl, ?_⟩
  rw [getLsbD_stepResponse_out, stepFn_out]
  simp [readResponse]

/-- Settles O47: a refusal and a fault keep `REG`; a STEP that completes writes the step of a nonzero register. -/
theorem stepNeverUnseeds : Obligations.StepNeverUnseeds := by
  intro s t r r' hr hlt hne h hr'
  obtain ⟨-, rfl⟩ | ⟨-, w, hrule⟩ | ⟨-, c, -, rfl⟩ := exec_registers h hr hr'
  · exact hne
  · have ht : r.taps ≠ 0#24 := by
      intro ht
      rw [ht, deg_zero, Nat.pow_zero, Nat.lt_one_iff] at hlt
      exact hne (BitVec.eq_of_toNat_eq hlt)
    rw [ruleOf, stepRule_of_seeded ht hne] at hrule
    cases hrule
    exact fun hzero => hne (eq_zero_of_stepFn_eq_zero hlt hzero)
  · exact hne

end Sys2Proof
end

section
/-! A READ that completes (20_memory.md R43, 42_register_access.md R140). -/

namespace Sys2Proof.Machine

/-- An error response has `ERR`, bit 31, set (30_encoding.md R66). -/
theorem le_toNat_errorResponse (c : Code) : 2 ^ 31 ≤ (errorResponse c).toNat := by
  have hc := c.isLt
  rw [errorResponse_eq, BitVec.toNat_ofNat]
  omega

/-- Fault entry answers an error response, whether it records the code or keeps an earlier one. -/
theorem raiseFault_shape (c : Cause) (r : Inst) (s : State) :
    ∃ q : Inst, raiseFault c r s = s.answered q (errorResponse q.fault) := ⟨_, rfl⟩

/-- What a READ can do: leave everything and answer the value of its rule, or answer an error response. -/
theorem exec_read_cases {i : Instr} {s t : State} (hi : i.isRead = true) (h : exec i s = .next t) :
    ∃ r, s.current = some r ∧
      ((∃ w, ruleOf i s r = .completes r w ∧ t = s.replied w) ∨
       (∃ q c, t = s.answered q (errorResponse c))) := by
  rw [exec_eq_rule, if_pos hi] at h
  obtain ⟨r, hc, ⟨r', w, hrule, rfl⟩ | ⟨c, -, rfl⟩⟩ := runRead_cases h
  · obtain rfl := read_rule_keeps hi hrule
    exact ⟨r', hc, .inl ⟨w, hrule, by rw [s.putInst_current r' hc, respond_eq_replied]⟩⟩
  · obtain ⟨q, hq⟩ := raiseFault_shape c r s
    exact ⟨r, hc, .inr ⟨q, q.fault, hq⟩⟩

@[simp] theorem State.answered_responses (s : State) (r : Inst) (w : Word) :
    (s.answered r w).responses = s.responses ++ [⟨s.port, w⟩] := State.respond_responses (s.putInst r) w

@[simp] theorem State.replied_responses (s : State) (w : Word) :
    (s.replied w).responses = s.responses ++ [⟨s.port, w⟩] := State.respond_responses s w

end Sys2Proof.Machine

namespace Sys2Proof
open Sys2Proof.Machine

/-- Settles O21: a READ that answers without `ERR` did not fault, so it changed nothing its rule sees (`ruleOf_congr`)
and completes again. -/
theorem readsAreIdempotent : Obligations.ReadsAreIdempotent := by
  intro i s t w hi h hresp hw
  obtain ⟨r, hc, ⟨v, hrule, rfl⟩ | ⟨q, c, rfl⟩⟩ := exec_read_cases hi h
  · obtain rfl : v = w := by simpa using hresp
    have hagain : ruleOf i (s.replied v) r = .completes r v := by
      rw [ruleOf_congr i (s := s.replied v) (s' := s) rfl rfl, hrule]
    exact ⟨rfl, exec_read_of_completes hi hc hagain⟩
  · obtain rfl : errorResponse c = w := by simpa using hresp
    exact absurd hw (Nat.not_lt.mpr (le_toNat_errorResponse c))

end Sys2Proof
end

section
/-! Interleaving (20_memory.md R47): a run of the block, seen from one instance. -/

namespace Sys2Proof.Machine

/-- The entry of the trace is of instance `k`. -/
def TraceEntry.isFor (k : Nat) : TraceEntry → Bool
  | .exchange port _ _ _ => port == k
  | .reset port => port == k

/-- The answers of an instance are those that its own entries of the trace record. -/
theorem State.responsesOf_eq_filter_trace (s : State) (k : Nat) :
    s.responsesOf k = (s.trace.filter (TraceEntry.isFor k)).filterMap TraceEntry.response? := by
  rw [State.responsesOf, State.responses, List.filter_filterMap, List.filterMap_filter]
  apply List.filterMap_congr
  intro e _
  cases e with
  | exchange port command draw response => simp [TraceEntry.response?, TraceEntry.isFor, Option.filter]
  | reset port => simp [TraceEntry.response?]

/-- What a command that goes through the halted check writes and answers is decided by its rule and the registers. -/
theorem runCommand_eq_answered (rule : Inst → Ending) (r : Inst) :
    ∃ q v, ∀ s : State, s.current = some r → runCommand s rule = .next (s.answered q v) := by
  by_cases hf : r.fault = 0#4
  · obtain ⟨q, v, hsettle⟩ := settle_eq_answered r (rule r)
    exact ⟨q, v, fun s hc => by rw [runCommand_running rule hc hf, hsettle]⟩
  · exact ⟨r, errorResponse r.fault, fun s hc => by rw [runCommand_halted rule hc hf, respond_eq_answered hc]⟩

/-- `CommandSeesItsInstanceOnly` for every word, an illegal one too. -/
theorem execWord_sees_registers_pool_draw (w : Word) {s s' : State} {r : Inst} (hc : s.current = some r)
    (hc' : s'.current = some r) (hp : s.pool = s'.pool) (hd : s.draw = s'.draw) :
    ∃ q v, execWord w s = .next (s.answered q v) ∧ execWord w s' = .next (s'.answered q v) := by
  unfold execWord
  cases decode w with
  | none =>
    obtain ⟨q, v, hq⟩ := runCommand_eq_answered (fun _ => .raises .illegalCommand) r
    exact ⟨q, v, hq s hc, hq s' hc'⟩
  | some i => exact commandSeesItsInstanceOnly i s s' r hc hc' hp hd

theorem step_eq_execWord {s : State} {p d : Nat} {w : Word} {rest : List HostEvent}
    (hh : s.host = .command p w d :: rest) : step s = execWord w (s.accept p w d rest) := by
  rw [step, fetch, hh]

theorem step_eq_resetPort {s : State} {p : Nat} {rest : List HostEvent} (hh : s.host = .reset p :: rest) :
    step s = resetPort p { s with host := rest } := by
  rw [step, fetch, hh]

/-- A step for another instance leaves instance `k` alone and records an entry of the other instance. -/
theorem step_of_other_port {s t : State} {k : Nat} {e : HostEvent} {rest : List HostEvent} (hh : s.host = e :: rest)
    (he : e.isFor k = false) (h : step s = .next t) :
    t.insts[k]? = s.insts[k]? ∧ ∃ x : TraceEntry, x.isFor k = false ∧ t.trace = s.trace ++ [x] := by
  cases e with
  | command p w d =>
    have hpk : p ≠ k := by simpa [HostEvent.isFor] using he
    obtain ⟨-, r', v, -, rfl⟩ := step_of_command hh h
    exact ⟨State.getElem?_putInst_of_ne _ r' k hpk.symm, .exchange p w d v, he, rfl⟩
  | reset p =>
    have hpk : p ≠ k := by simpa [HostEvent.isFor] using he
    obtain ⟨-, rfl⟩ := step_of_reset hh h
    exact ⟨List.getElem?_set_ne hpk, .reset p, he, rfl⟩

/-- A step for instance `k` is decided by the event, the registers of `k` and the cache: another block with the same
three makes the same step of `k` and records the same. -/
theorem step_of_own_port {s s' t : State} {k : Nat} {e : HostEvent} {rest rest' : List HostEvent}
    (hh : s.host = e :: rest) (hh' : s'.host = e :: rest') (he : e.isFor k = true) (hk : s'.insts[k]? = s.insts[k]?)
    (hp : s'.pool = s.pool) (h : step s = .next t) :
    ∃ t', step s' = .next t' ∧ t'.insts[k]? = t.insts[k]? ∧
      ∃ x : TraceEntry, x.isFor k = true ∧ t.trace = s.trace ++ [x] ∧ t'.trace = s'.trace ++ [x] := by
  cases e with
  | command p w d =>
    obtain rfl : p = k := by simpa [HostEvent.isFor] using he
    obtain ⟨r, -, -, hr, -⟩ := step_of_command hh h
    have hc : (s.accept p w d rest).current = some r := hr
    have hc' : (s'.accept p w d rest').current = some r := hk.trans hr
    obtain ⟨q, v, hq, hq'⟩ := execWord_sees_registers_pool_draw w hc hc' hp.symm rfl
    rw [step_eq_execWord hh, hq] at h
    cases h
    exact ⟨_, (step_eq_execWord hh').trans hq',
      (State.current_answered hc' q v).trans (State.current_answered hc q v).symm, .exchange p w d v, he, rfl, rfl⟩
  | reset p =>
    obtain rfl : p = k := by simpa [HostEvent.isFor] using he
    obtain ⟨hlt, rfl⟩ := step_of_reset hh h
    have hlt' : p < s'.insts.length := by simpa [hlt] using congrArg Option.isSome hk
    exact ⟨_, (step_eq_resetPort hh').trans (if_pos hlt'), by simp [hlt, hlt'], .reset p, he, rfl, rfl⟩

theorem runAll_of_host_nil {s : State} (hh : s.host = []) : runAll s = .next s := by
  rw [runAll, hh]
  rfl

/-- The run of a block with an event to take is one step and the run of what it leads to. -/
theorem runAll_next_iff {s t : State} {e : HostEvent} {rest : List HostEvent} (hh : s.host = e :: rest) :
    runAll s = .next t ↔ ∃ m, step s = .next m ∧ runAll m = .next t := by
  rw [runAll, hh, List.length_cons, runFor]
  cases hm : step s with
  | next m =>
    have hhost : m.host = rest := by rw [step_host hm, hh, List.tail_cons]
    simp [runAll, hhost]
  | fault r => simp
  | refused r => simp

/-- A run of the block, seen from instance `k`: a block that agrees with it on `k` and the cache, and has only the events
for `k` to take, brings `k` to the same registers and records the same entries of `k`. -/
theorem runAll_projects {s s' t : State} {k : Nat} (hh' : s'.host = s.host.filter (HostEvent.isFor k))
    (hk : s'.insts[k]? = s.insts[k]?) (hp : s'.pool = s.pool) (h : runAll s = .next t) :
    ∃ u, runAll s' = .next u ∧ u.insts[k]? = t.insts[k]? ∧ u.pool = t.pool ∧
      ∃ l, t.trace = s.trace ++ l ∧ u.trace = s'.trace ++ l.filter (TraceEntry.isFor k) := by
  induction hh : s.host generalizing s s' with
  | nil =>
    rw [runAll_of_host_nil hh] at h
    cases h
    rw [hh] at hh'
    exact ⟨s', runAll_of_host_nil hh', hk, hp, [], by simp, by simp⟩
  | cons e rest ih =>
    obtain ⟨m, hm, hrun⟩ := (runAll_next_iff hh).mp h
    have hmhost : m.host = rest := by rw [step_host hm, hh, List.tail_cons]
    have hmpool : m.pool = s.pool := (step_keeps_pool_and_count hm).1
    rw [hh, List.filter_cons] at hh'
    cases he : e.isFor k with
    | true =>
      rw [he, if_pos rfl] at hh'
      obtain ⟨m', hm', hmk, x, hx, hmt, hmt'⟩ := step_of_own_port hh hh' he hk hp hm
      have hmhost' : m'.host = m.host.filter (HostEvent.isFor k) := by
        rw [step_host hm', hh', List.tail_cons, hmhost]
      have hmpool' : m'.pool = m.pool := by rw [(step_keeps_pool_and_count hm').1, hp, hmpool]
      obtain ⟨u, hu, huk, hup, l, hl, hl'⟩ := ih hmhost' hmk hmpool' hrun hmhost
      exact ⟨u, (runAll_next_iff hh').mpr ⟨m', hm', hu⟩, huk, hup, x :: l, by simp [hl, hmt],
        by simp [hl', hmt', hx]⟩
    | false =>
      rw [he, if_neg Bool.false_ne_true, ← hmhost] at hh'
      obtain ⟨hmk, x, hx, hmt⟩ := step_of_other_port hh he hm
      obtain ⟨u, hu, huk, hup, l, hl, hl'⟩ := ih hh' (hk.trans hmk.symm) (hp.trans hmpool.symm) hrun hmhost
      exact ⟨u, hu, huk, hup, x :: l, by simp [hl, hmt], by simp [hl', hx]⟩

end Sys2Proof.Machine

namespace Sys2Proof
open Sys2Proof.Machine

/-- Settles O41: by `runAll_projects` the two runs record the same entries of instance `k`, and its answers are read off
those. -/
theorem interleavingIsInvisible : Obligations.InterleavingIsInvisible := by
  intro s t k h
  obtain ⟨u, hu, hk, hp, l, hl, hl'⟩ := runAll_projects (s' := s.onlyFor k) rfl rfl rfl h
  have hstart : (s.onlyFor k).trace = s.trace := rfl
  refine ⟨u, hu, hk, ?_, hp⟩
  simp only [State.responsesOf_eq_filter_trace, hl, hl', hstart, List.filter_append, List.filter_filter, Bool.and_self]

end Sys2Proof
end

section
/-! The decoder and the encoder undo each other (30_encoding.md R63, R67). -/

namespace Sys2Proof
open Sys2Proof.Machine

/-- Settles O1: the fields of a command's word are those it is written with, and the decoder of R67 tells the rows apart
by them. -/
theorem decodeOfEncode : Obligations.DecodeOfEncode := by
  intro i
  cases i with
  | select | seed | step => simp [encode, decode]
  | ldtaps imm | ldreg imm => simp [encode, decode]
  | readTaps | readDeg | readReg | readFault | readPoolcount => simp [encode, decode, decodeRead]
  | readPool imm => simp [encode, decode]

/-- A READ word without an operand is the word of the command its selector names. -/
theorem encode_of_decodeRead {sel : BitVec 4} {i : Instr} (h : decodeRead sel = some i) :
    encode i = formatC 6#4 sel 0#24 := by
  unfold decodeRead at h
  split_ifs at h <;> cases h <;> subst sel <;> rfl

/-- Settles O2: a row of the decoder fixes every field that its command does not carry, and a word is made up of its
fields. -/
theorem encodeOfDecode : Obligations.EncodeOfDecode := by
  intro w i h
  rw [← formatC_fields w]
  unfold decode at h
  split_ifs at h with hselect hseed hstep hldtaps hldreg hread hpool
  · cases h; simp only [encode, hselect]
  · cases h; simp only [encode, hseed]
  · cases h; simp only [encode, hstep]
  · cases h; simp only [encode, hldtaps]
  · cases h; simp only [encode, hldreg]
  · simp only [encode_of_decodeRead h, hread]
  · cases h; simp only [encode, hpool]

/-- A word decodes to a command exactly when it is the word of that command. -/
theorem decode_eq_some_iff (w : Word) (i : Instr) : decode w = some i ↔ encode i = w :=
  ⟨encodeOfDecode w i, fun h => h ▸ decodeOfEncode i⟩

/-- No two commands have the same word. -/
theorem encode_injective : Function.Injective encode := fun i j h => by
  rw [← decode_eq_some_iff, decodeOfEncode] at h
  exact (Option.some.inj h).symm

end Sys2Proof
end

section
/-! The rows of R63 and the words of each; the illegal words and what executing one does (30_encoding.md R63, R64). -/

namespace Sys2Proof
open Sys2Proof.Machine Sys2Proof.Laws
open Sys2Proof.Laws.TableRow (rowOf formatC_and_high)

theorem tableRow_statement (i : Instr) : TableRow.Statement i := by
  cases i with
  | select => exact TableRow.select
  | seed => exact TableRow.seed
  | step => exact TableRow.step
  | ldtaps imm => exact TableRow.ldtaps imm
  | ldreg imm => exact TableRow.ldreg imm
  | readTaps => exact TableRow.readTaps
  | readDeg => exact TableRow.readDeg
  | readReg => exact TableRow.readReg
  | readFault => exact TableRow.readFault
  | readPoolcount => exact TableRow.readPoolcount
  | readPool imm => exact TableRow.readPool imm

/-- Every row of the table is the row of a command. -/
theorem exists_rowOf_eq {row : Word × Word} (h : row ∈ patternTable) : ∃ i, rowOf i = row := by
  have htable : patternTable = [.select, .seed, .step, .ldtaps 0, .ldreg 0, .readTaps, .readDeg, .readReg, .readFault,
      .readPoolcount, .readPool 0].map rowOf := rfl
  rw [htable, List.mem_map] at h
  obtain ⟨i, -, hi⟩ := h
  exact ⟨i, hi⟩

/-- The mask of a row with an operand leaves `IMM` free and fixes the rest of the word. -/
theorem formatC_immField_of_and_high {w : Word} {opc sel : BitVec 4} (h : w &&& 0xFF000000#32 = formatC opc sel 0#24) :
    formatC opc sel (immField w) = w := by
  rw [← formatC_fields w, formatC_and_high] at h
  have hopc : opcField w = opc := by simpa using congrArg opcField h
  have hsel : selField w = sel := by simpa using congrArg selField h
  rw [← hopc, ← hsel, formatC_fields]

/-- A word that matches a command's row is the word of a command of that row. -/
theorem exists_encode_eq_of_and_rowOf {w : Word} {i : Instr} (h : w &&& (rowOf i).1 = (rowOf i).2) :
    ∃ j, rowOf j = rowOf i ∧ encode j = w := by
  cases i with
  | select | seed | step | readTaps | readDeg | readReg | readFault | readPoolcount =>
    exact ⟨_, rfl, h.symm.trans BitVec.and_allOnes⟩
  | ldtaps imm => exact ⟨.ldtaps (immField w), rfl, formatC_immField_of_and_high h⟩
  | ldreg imm => exact ⟨.ldreg (immField w), rfl, formatC_immField_of_and_high h⟩
  | readPool imm => exact ⟨.readPool (immField w), rfl, formatC_immField_of_and_high h⟩

/-- The words of a row are those of its commands. -/
theorem mem_patternsOf_iff (w : Word) (row : Word × Word) :
    row ∈ patternsOf w ↔ ∃ i, rowOf i = row ∧ encode i = w := by
  rw [patternsOf, List.mem_filter, beq_iff_eq]
  constructor
  · rintro ⟨hrow, hmatch⟩
    obtain ⟨i, rfl⟩ := exists_rowOf_eq hrow
    exact exists_encode_eq_of_and_rowOf hmatch
  · rintro ⟨i, rfl, rfl⟩
    obtain ⟨hmatch, -, hrow⟩ := tableRow_statement i
    exact ⟨hrow, hmatch⟩

/-- An illegal word is of no row. -/
theorem patternsOf_eq_nil {w : Word} (h : decode w = none) : patternsOf w = [] := by
  apply List.eq_nil_iff_forall_not_mem.mpr
  intro row hrow
  obtain ⟨i, -, rfl⟩ := (mem_patternsOf_iff w row).mp hrow
  cases h.symm.trans (decodeOfEncode i)

/-- A command's word is of its row and of no other, since no other command has the same word. -/
theorem patternsOf_encode (i : Instr) : patternsOf (encode i) = [rowOf i] := by
  have hmem : ∀ row, row ∈ patternsOf (encode i) ↔ row ∈ [rowOf i] := by
    intro row
    rw [mem_patternsOf_iff, List.mem_singleton]
    constructor
    · rintro ⟨j, rfl, hj⟩
      rw [encode_injective hj]
    · rintro rfl
      exact ⟨i, rfl, rfl⟩
  have hnodup : (patternsOf (encode i)).Nodup := List.Nodup.filter _ (by decide)
  exact List.perm_singleton.mp ((List.perm_ext_iff_of_nodup hnodup (List.nodup_singleton _)).mpr hmem)

/-- The selectors 0 to 4 each name a command. -/
theorem decodeRead_ne_none {sel : BitVec 4} (h : sel ≤ 4#4) : decodeRead sel ≠ none := by
  revert sel
  decide

/-- The illegal words by their fields (30_encoding.md R64). -/
theorem decode_eq_none_iff (w : Word) :
    decode w = none ↔
      (w.toNat / 2 ^ 28 = 0 ∨ 7 ≤ w.toNat / 2 ^ 28) ∨
      (1 ≤ w.toNat / 2 ^ 28 ∧ w.toNat / 2 ^ 28 ≤ 5 ∧ w.toNat / 2 ^ 24 % 16 ≠ 0) ∨
      (1 ≤ w.toNat / 2 ^ 28 ∧ w.toNat / 2 ^ 28 ≤ 3 ∧ w.toNat % 2 ^ 24 ≠ 0) ∨
      (w.toNat / 2 ^ 28 = 6 ∧ 6 ≤ w.toNat / 2 ^ 24 % 16) ∨
      (w.toNat / 2 ^ 28 = 6 ∧ w.toNat / 2 ^ 24 % 16 ≤ 4 ∧ w.toNat % 2 ^ 24 ≠ 0) := by
  rw [← opcField_toNat, ← selField_toNat, ← immField_toNat]
  unfold decode
  split_ifs with hselect hseed hstep hldtaps hldreg hread hpool
  · simp [hselect]
  · simp [hseed]
  · simp [hstep]
  · simp [hldtaps]
  · simp [hldreg]
  · obtain ⟨hopc, hsel, himm⟩ := hread
    have hlt : (selField w).toNat < 6 := Nat.lt_of_le_of_lt hsel (by decide)
    simp [decodeRead_ne_none hsel, hopc, himm, hlt]
  · simp [hpool]
  · simp only [true_iff]
    simp only [← BitVec.toNat_inj, BitVec.toNat_ofNat, BitVec.le_def] at *
    omega

/-- An illegal word for a running instance sets `FAULT` to ILLEGAL_COMMAND and is answered with it
(60_exceptions.md R150). -/
theorem step_of_illegal_word {s : State} {r : Inst} {p d : Nat} {w : Word} {rest : List HostEvent}
    (hh : s.host = .command p w d :: rest) (hr : s.insts[p]? = some r) (hf : r.fault = 0#4) (hw : decode w = none) :
    step s = .next ((s.accept p w d rest).answered { r with fault := 1#4 } 0x80000001#32) := by
  have hc : (s.accept p w d rest).current = some r := hr
  have hrun : execIllegal (s.accept p w d rest) = .next (raiseFault .illegalCommand r (s.accept p w d rest)) :=
    runCommand_running _ hc hf
  rw [step_eq_execWord hh, execWord, hw, hrun, raiseFault_of_running _ _ _ hf]
  rfl

/-- Settles O3: the fields by `decode_eq_none_iff`; a legal word is the word of its command, which is of that command's
row alone; executing one by `step_of_illegal_word`. -/
theorem illegalWords : Obligations.IllegalWords := by
  refine ⟨decode_eq_none_iff, by decide, ?_, fun s r p d w rest => step_of_illegal_word⟩
  intro w
  cases hw : decode w with
  | none => exact .inl ⟨rfl, patternsOf_eq_nil hw⟩
  | some i =>
    obtain rfl := encodeOfDecode w i hw
    exact .inr ⟨rfl, congrArg List.length (patternsOf_encode i)⟩

end Sys2Proof
end

section
/-! The assembler's words (30_encoding.md R68 to R70). -/

namespace Sys2Proof.Machine

/-- An operand in range assembles to the command's word. -/
theorem assemble_of_wf (l : AsmLine) (h : l.wf = true) : assemble l = some (encode (asmInstr l)) := if_pos h

/-- An operand out of range is refused. -/
theorem assemble_of_not_wf (l : AsmLine) (h : l.wf = false) : assemble l = none := by
  simp [assemble, h]

/-- A word with the operand `n`, as a number. -/
theorem formatC_ofNat (opc sel : BitVec 4) {n : Nat} (h : n < 2 ^ 24) :
    formatC opc sel (BitVec.ofNat 24 n) = BitVec.ofNat 32 (opc.toNat * 2 ^ 28 + sel.toNat * 2 ^ 24 + n) := by
  have hopc := opc.isLt
  have hsel := sel.isLt
  apply BitVec.eq_of_toNat_eq
  rw [formatC_toNat, BitVec.toNat_ofNat, BitVec.toNat_ofNat]
  omega

theorem wf_ldpoly_iff (p : Nat) : (AsmLine.ldpoly p).wf = true ↔ p % 2 = 1 ∧ 3 ≤ p ∧ p < 2 ^ 25 := by
  simp only [AsmLine.wf, Nat.testBit_zero, Bool.and_eq_true, decide_eq_true_eq, and_assoc]

theorem assemble_ldtaps {n : Nat} (h : n < 2 ^ 24) : assemble (.ldtaps n) = some (BitVec.ofNat 32 (0x40000000 + n)) := by
  rw [assemble_of_wf (.ldtaps n) (decide_eq_true h), asmInstr, encode, formatC_ofNat _ _ h]
  rfl

theorem assemble_ldreg {n : Nat} (h : n < 2 ^ 24) : assemble (.ldreg n) = some (BitVec.ofNat 32 (0x50000000 + n)) := by
  rw [assemble_of_wf (.ldreg n) (decide_eq_true h), asmInstr, encode, formatC_ofNat _ _ h]
  rfl

theorem assemble_readPool {n : Nat} (h : n < 2 ^ 24) :
    assemble (.readPool n) = some (BitVec.ofNat 32 (0x65000000 + n)) := by
  rw [assemble_of_wf (.readPool n) (decide_eq_true h), asmInstr, encode, formatC_ofNat _ _ h]
  rfl

end Sys2Proof.Machine

namespace Sys2Proof
open Sys2Proof.Machine

/-- Settles O6: the word of an operand in range is the number made up of its fields. -/
theorem assemblerWords : Obligations.AssemblerWords := by
  refine ⟨rfl, rfl, rfl, rfl, rfl, rfl, rfl, rfl, fun n hn => ?_, fun n hn => ?_⟩
  · exact ⟨assemble_ldtaps hn, assemble_ldreg hn, assemble_readPool hn⟩
  · have hout : decide (n < 2 ^ 24) = false := decide_eq_false (Nat.not_lt.mpr hn)
    exact ⟨assemble_of_not_wf (.ldtaps n) hout, assemble_of_not_wf (.ldreg n) hout,
      assemble_of_not_wf (.readPool n) hout⟩

/-- Settles O7: for `p` in range LDPOLY stands for LDTAPS of `p >> 1`, which is in range too, and `p` is odd. -/
theorem pseudoInstruction : Obligations.PseudoInstruction := by
  intro p
  have hhalf : p >>> 1 = p / 2 := Nat.shiftRight_eq_div_pow p 1
  constructor
  · intro hp
    have hlt : p >>> 1 < 2 ^ 24 := by omega
    have hsame : assemble (.ldpoly p) = assemble (.ldtaps (p >>> 1)) :=
      (assemble_of_wf (.ldpoly p) ((wf_ldpoly_iff p).mpr hp)).trans
        (assemble_of_wf (.ldtaps (p >>> 1)) (decide_eq_true hlt)).symm
    refine ⟨hsame, ?_, ?_⟩
    · rw [hsame, assemble_ldtaps hlt, hhalf]
    · rw [shift_or_one]
      omega
  · intro hp
    apply assemble_of_not_wf
    rw [← Bool.not_eq_true, wf_ldpoly_iff]
    omega

/-- Settles O4: the assembled words by O7 and the assembler's lemmas, the decoded one by O1. -/
theorem encodingExamples : Obligations.EncodingExamples := by
  obtain ⟨hsame, hword, -⟩ := (pseudoInstruction 0x100005).1 (by decide)
  exact ⟨hsame, hword, assemble_ldreg (by decide), assemble_readPool (by decide), by decide, by decide,
    decodeOfEncode .readDeg⟩

/-- Settles O5: each of the words is the one the encoder gives. -/
theorem rowWordsDecode : Obligations.RowWordsDecode :=
  ⟨decodeOfEncode .select, decodeOfEncode .seed, decodeOfEncode .step, decodeOfEncode (.ldtaps 0x800001),
    decodeOfEncode (.ldreg 0x123456), decodeOfEncode .readTaps, decodeOfEncode .readDeg, decodeOfEncode .readReg,
    decodeOfEncode .readFault, decodeOfEncode .readPoolcount, decodeOfEncode (.readPool 0xFFFFFF)⟩

end Sys2Proof
end

section
/-! SELECT (40_polynomial_cache.md R92, R93). -/

namespace Sys2Proof.Machine

/-- The degree of a polynomial from its highest set bit (00_scope.md R10). -/
theorem polyDeg_of_bounds {P : Poly} {d : Nat} (hlo : 2 ^ d ≤ P.toNat) (hhi : P.toNat < 2 ^ (d + 1)) :
    polyDeg P = d := by
  have h0 : P.toNat ≠ 0 := by have := Nat.two_pow_pos d; omega
  exact (msb_eq_iff h0).mpr ⟨hlo, hhi⟩

/-- The highest set bit of a polynomial of positive degree (00_scope.md R10). -/
theorem polyDeg_bounds {P : Poly} (h : polyDeg P ≠ 0) : 2 ^ polyDeg P ≤ P.toNat ∧ P.toNat < 2 ^ (polyDeg P + 1) := by
  have h0 : P.toNat ≠ 0 := fun e => h (by rw [polyDeg, e]; rfl)
  exact (msb_eq_iff h0).mp rfl

/-- SELECT on a running instance, when the draw is the index of the entry `P` of degree `d` (R92). -/
theorem exec_select_of_drawn {s : State} {r : Inst} {P : Poly} {d : Nat} (hc : s.current = some r) (hf : r.fault = 0#4)
    (hP : s.pool[drawIndex s.draw s.pool.length]? = some P) (hlo : 2 ^ d ≤ P.toNat) (hhi : P.toNat < 2 ^ (d + 1)) :
    exec .select s = .next (s.answered { r with taps := BitVec.ofNat 24 (P.toNat / 2), reg := 0#24 }
      (BitVec.ofNat 32 (d * 2 ^ 24 + P.toNat / 2))) := by
  have hcount : s.poolCount ≠ 0 := by
    obtain ⟨hlt, -⟩ := List.getElem?_eq_some_iff.mp hP
    exact Nat.ne_zero_of_lt hlt
  have hread : s.poolRead (drawIndex s.draw s.poolCount) = P := by
    rw [State.poolRead, State.poolCount, List.getD_eq_getElem?_getD, hP, Option.getD_some]
  have hdeg := polyDeg_of_bounds hlo hhi
  have hrule : selectRule s r =
      .completes { r with taps := tapsOf P, reg := 0#24 } (configResponse d (tapsOf P)) := by
    simp only [selectRule, if_neg hcount, hread, hdeg]
  have htaps : BitVec.ofNat 24 (P.toNat / 2) = tapsOf P := by
    rw [← tapsOf_toNat, BitVec.ofNat_toNat, BitVec.setWidth_eq]
  rw [exec_of_current hc, if_neg (by simp [hf]), ruleOf, hrule, settle_completes, respond_putInst_eq_answered, htaps,
    configResponse_eq d _ (hdeg ▸ polyDeg_le P), tapsOf_toNat]

/-- The entries of an admissible pool are admissible (R88). -/
theorem admissibleEntry_of_mem {pool : List Poly} {P : Poly} (hpool : admissiblePool pool = true) (hP : P ∈ pool) :
    admissibleEntry P = true := by
  rw [admissiblePool, Bool.and_eq_true] at hpool
  exact List.all_eq_true.mp hpool.1 P hP

end Sys2Proof.Machine

namespace Sys2Proof
open Sys2Proof.Machine

/-- Settles O22: the drawn index is below the count, and the entry there is admissible. -/
theorem selectConfigures : Obligations.SelectConfigures := by
  intro s r hc hf hpool hne
  have hlt : drawIndex s.draw s.pool.length < s.pool.length := drawIndex_lt _ (List.length_pos_of_ne_nil hne)
  have hmem : s.pool[drawIndex s.draw s.pool.length] ∈ s.pool := List.getElem_mem hlt
  obtain ⟨hmin, hmax, -, -⟩ := (admissibleEntry_iff _).mp (admissibleEntry_of_mem hpool hmem)
  obtain ⟨hlo, hhi⟩ := polyDeg_bounds (Nat.ne_zero_of_lt hmin)
  exact ⟨_, hmem, _, hmin, hmax, hlo, hhi, exec_select_of_drawn hc hf (List.getElem?_eq_getElem hlt) hlo hhi⟩

/-- Settles O23: an index of the pool, as raw draw, is the index taken. -/
theorem selectAdmitsEveryIndex : Obligations.SelectAdmitsEveryIndex := by
  intro s r i d P hc hf hP hlo hhi
  obtain ⟨hlt, -⟩ := List.getElem?_eq_some_iff.mp hP
  have hdrawn : s.pool[drawIndex i s.pool.length]? = some P := by rw [drawIndex_of_lt hlt, hP]
  exact ⟨i, exec_select_of_drawn (s := { s with draw := i }) hc hf hdrawn hlo hhi⟩

/-- Settles O24: the rule of SELECT looks at the count first. -/
theorem selectFaultsOnEmptyPool : Obligations.SelectFaultsOnEmptyPool := by
  intro s r (hc : s.current = some r) hf hempty
  have hrule : ruleOf .select s r = .raises .poolEmpty := if_pos (by rw [State.poolCount, hempty]; rfl)
  rw [exec_of_current hc, if_neg (by simp [hf]), hrule, settle_raises, raiseFault_of_running _ _ _ hf]
  rfl

end Sys2Proof
end

section
/-! The remainder over GF(2) and the trial division (40_polynomial_cache.md R80 to R83). -/

namespace Sys2Proof.Machine

/-- A value with no bit at or above the divisor's highest: it is 0 or of lower degree. -/
theorem lt_two_pow_msb_iff (a b : Nat) : a < 2 ^ msb b ↔ a = 0 ∨ msb a < msb b := by
  by_cases ha : a = 0
  · simp [ha]
  · simp only [ha, false_or]
    exact (Nat.log2_lt ha).symm

/-- The loop of the remainder goes on while the value reaches the divisor's degree (R80). -/
theorem gf2_continues_iff (a b : Nat) : (a ≠ 0 ∧ msb b ≤ msb a) ↔ 2 ^ msb b ≤ a := by
  rw [← Nat.not_lt, ← Nat.not_lt, lt_two_pow_msb_iff, not_or]

theorem gf2ModLoop_of_lt {a b : Nat} (fuel : Nat) (h : a < 2 ^ msb b) : gf2ModLoop fuel a b = a := by
  cases fuel with
  | zero => rfl
  | succ fuel => rw [gf2ModLoop, if_neg]; rwa [gf2_continues_iff, Nat.not_le]

theorem gf2ModLoop_add (m n a b : Nat) : gf2ModLoop (m + n) a b = gf2ModLoop n (gf2ModLoop m a b) b := by
  induction m generalizing a with
  | zero => rw [Nat.zero_add, gf2ModLoop]
  | succ m ih =>
    rw [Nat.succ_add, gf2ModLoop, gf2ModLoop]
    split
    · exact ih _
    next hdone =>
      rw [gf2_continues_iff, Nat.not_le] at hdone
      exact (gf2ModLoop_of_lt n hdone).symm

/-- The number of passes after which the loop is done: each takes away the highest bit (R80). -/
theorem gf2ModLoop_lt {fuel a b : Nat} (hb : 1 ≤ b) (h : a < 2 ^ (fuel + msb b)) :
    gf2ModLoop fuel a b < 2 ^ msb b := by
  induction fuel generalizing a with
  | zero => rwa [Nat.zero_add] at h
  | succ fuel ih =>
    rw [gf2ModLoop]
    split
    next hmore =>
      obtain ⟨ha, hdeg⟩ := hmore
      have hmsb : msb a ≤ fuel + msb b := by
        have : msb a < fuel + 1 + msb b := (Nat.log2_lt ha).mpr h
        omega
      exact ih (Nat.lt_of_lt_of_le (gf2_pass_lt hb ha hdeg) (Nat.pow_le_pow_right (by decide) hmsb))
    next hdone => rwa [gf2_continues_iff, Nat.not_le] at hdone

theorem lt_two_pow_msb_succ (a : Nat) : a < 2 ^ (msb a + 1) := Nat.lt_log2_self

/-- More passes than are needed change nothing: any number that is enough gives the remainder. -/
theorem gf2ModLoop_eq_gf2Mod {fuel a b : Nat} (hb : 1 ≤ b) (h : a < 2 ^ (fuel + msb b)) :
    gf2ModLoop fuel a b = gf2Mod a b := by
  have henough : a < 2 ^ (msb a + 1 + msb b) :=
    Nat.lt_of_lt_of_le (lt_two_pow_msb_succ a) (Nat.pow_le_pow_right (by decide) (Nat.le_add_right _ _))
  calc gf2ModLoop fuel a b
      = gf2ModLoop (fuel + (msb a + 1)) a b := by rw [gf2ModLoop_add, gf2ModLoop_of_lt _ (gf2ModLoop_lt hb h)]
    _ = gf2ModLoop (msb a + 1 + fuel) a b := by rw [Nat.add_comm]
    _ = gf2Mod a b := by rw [gf2ModLoop_add, gf2ModLoop_of_lt _ (gf2ModLoop_lt hb henough), gf2Mod]

/-- `msb(a) - msb(b) + 1` passes are enough (R80). -/
theorem lt_two_pow_passes (a b : Nat) : a < 2 ^ (msb a - msb b + 1 + msb b) :=
  Nat.lt_of_lt_of_le (lt_two_pow_msb_succ a) (Nat.pow_le_pow_right (by decide) (by omega))

theorem gf2Mod_lt {a b : Nat} (hb : 1 ≤ b) : gf2Mod a b < 2 ^ msb b := by
  rw [← gf2ModLoop_eq_gf2Mod hb (lt_two_pow_passes a b)]
  exact gf2ModLoop_lt hb (lt_two_pow_passes a b)

/-- One pass of the remainder (R80). -/
theorem gf2Mod_eq {a b : Nat} (hb : 1 ≤ b) :
    gf2Mod a b = if a ≠ 0 ∧ msb b ≤ msb a then gf2Mod (a ^^^ (b <<< (msb a - msb b))) b else a := by
  conv_lhs => rw [gf2Mod, gf2ModLoop]
  split
  next hmore =>
    obtain ⟨ha, hdeg⟩ := hmore
    exact gf2ModLoop_eq_gf2Mod hb
      (Nat.lt_of_lt_of_le (gf2_pass_lt hb ha hdeg) (Nat.pow_le_pow_right (by decide) (Nat.le_add_right _ _)))
  next => rfl

/-- The trial loop from an odd value, with fuel to reach the bound, tries every odd value below it (R82). -/
theorem trialLoop_iff {fuel p bound t : Nat} (ht : t % 2 = 1) (hfuel : bound ≤ t + 2 * fuel) :
    trialLoop fuel p bound t = true ↔ ∀ u, u % 2 = 1 → t ≤ u → u < bound → gf2Mod p u ≠ 0 := by
  induction fuel generalizing t with
  | zero =>
    simp only [trialLoop, true_iff]
    intro u _ hle hlt
    omega
  | succ fuel ih =>
    rw [trialLoop]
    split_ifs with hlt hdiv
    · simp only [false_iff]
      intro hall
      exact hall t ht (Nat.le_refl t) hlt (by simpa [divides] using hdiv)
    · rw [ih (by omega) (by omega)]
      have hnot : gf2Mod p t ≠ 0 := by simpa [divides] using hdiv
      constructor
      · intro hall u hu hle hub
        obtain rfl | hne := Nat.eq_or_lt_of_le hle
        · exact hnot
        · exact hall u hu (by omega) hub
      · intro hall u hu hle
        exact hall u hu (by omega)
    · simp only [true_iff]
      intro u _ hle hub
      omega

end Sys2Proof.Machine

namespace Sys2Proof
open Sys2Proof.Machine

/-- Settles O48: a value below `2^(n + msb(b))` needs at most `n` passes (`gf2ModLoop_lt`), and any number of passes
that is enough gives the same remainder (`gf2ModLoop_eq_gf2Mod`). -/
theorem gf2ModIsTheLoop : Obligations.Gf2ModIsTheLoop := by
  refine ⟨fun a b hb => ⟨gf2Mod_eq hb, fun ha hdeg => gf2_pass_lt hb ha hdeg, ?_, ?_⟩, fun a => ?_⟩
  · exact gf2ModLoop_eq_gf2Mod hb (lt_two_pow_passes a b)
  · exact (lt_two_pow_msb_iff _ b).mp (gf2Mod_lt hb)
  · exact Nat.lt_one_iff.mp (gf2Mod_lt (b := 1) (Nat.le_refl 1))

/-- Settles O49: the fuel of the trial loop is the bound itself. -/
theorem trialDivision : Obligations.TrialDivision := fun _ _ hm => trialLoop_iff hm (by omega)

end Sys2Proof
end

section
/-! The candidates of a degree: their bits, their values, their number and their order (40_polynomial_cache.md R84,
R85). -/

namespace Sys2Proof.Machine

theorem mem_candidates_iff (d P : Nat) :
    P ∈ candidates d ↔ ∃ p1 p2, p1 < d ∧ p2 < p1 ∧ 1 ≤ p2 ∧ candidate d p1 p2 = P := by
  simp only [candidates, List.mem_flatMap, List.mem_map, mem_downTo]
  constructor
  · rintro ⟨p1, ⟨_, hp1⟩, p2, ⟨hp2, hp21⟩, rfl⟩
    exact ⟨p1, p2, by omega, by omega, hp2, rfl⟩
  · rintro ⟨p1, p2, hp1, hp21, hp2, rfl⟩
    exact ⟨p1, ⟨by omega, by omega⟩, p2, ⟨hp2, by omega⟩, rfl⟩

/-- A candidate has the terms of degree `d`, `p1`, `p2` and 0 (R84). -/
theorem testBit_candidate (d p1 p2 i : Nat) :
    (candidate d p1 p2).testBit i = decide (i ∈ [d, p1, p2, 0]) := by
  rw [candidate, Nat.one_shiftLeft, Nat.one_shiftLeft, Nat.one_shiftLeft, ← Nat.pow_zero 2]
  simp only [Nat.testBit_or, Nat.testBit_two_pow, List.mem_cons, List.not_mem_nil, or_false, Bool.decide_or,
    Bool.or_assoc, eq_comm (a := i)]

/-- An OR with a power of two above every bit of the other operand is a sum. -/
theorem two_pow_or_of_lt {i b : Nat} (h : b < 2 ^ i) : 2 ^ i ||| b = 2 ^ i + b := by
  have := Nat.two_pow_add_eq_or_of_lt h 1
  rwa [Nat.mul_one, eq_comm] at this

theorem two_mul_two_pow_le {p q : Nat} (h : p < q) : 2 * 2 ^ p ≤ 2 ^ q := by
  rw [← Nat.pow_succ']
  exact Nat.pow_le_pow_right (by decide) h

/-- A candidate's lower terms sum up to less than its leading one. -/
theorem lower_terms_lt {d p1 p2 : Nat} (h1 : p1 < d) (h21 : p2 < p1) (h2 : 1 ≤ p2) :
    1 < 2 ^ p2 ∧ 2 ^ p2 + 1 < 2 ^ p1 ∧ 2 ^ p1 + (2 ^ p2 + 1) < 2 ^ d := by
  have h3 := two_mul_two_pow_le h2
  have h4 := two_mul_two_pow_le h21
  have h5 := two_mul_two_pow_le h1
  omega

theorem candidate_eq_sum {d p1 p2 : Nat} (h1 : p1 < d) (h21 : p2 < p1) (h2 : 1 ≤ p2) :
    candidate d p1 p2 = 2 ^ d + 2 ^ p1 + 2 ^ p2 + 1 := by
  obtain ⟨hlt2, hlt1, hlt⟩ := lower_terms_lt h1 h21 h2
  simp only [candidate, Nat.one_shiftLeft, Nat.or_assoc]
  rw [two_pow_or_of_lt hlt2, two_pow_or_of_lt hlt1, two_pow_or_of_lt hlt]
  omega

/-- A candidate of degree `d` has degree `d` (R84). -/
theorem candidates_bounds {d P : Nat} (h : P ∈ candidates d) : 2 ^ d ≤ P ∧ P < 2 ^ (d + 1) := by
  obtain ⟨p1, p2, h1, h21, h2, rfl⟩ := (mem_candidates_iff d P).mp h
  obtain ⟨hlt2, hlt1, hlt⟩ := lower_terms_lt h1 h21 h2
  rw [candidate_eq_sum h1 h21 h2, Nat.pow_succ]
  omega

/-- The candidates fall with `p1`, whatever `p2` (R85). -/
theorem candidate_lt_of_p1_lt {d p1 p2 q1 q2 : Nat} (hp1 : p1 < d) (hq : q1 < p1) (hp21 : p2 < p1) (hp2 : 1 ≤ p2)
    (hq21 : q2 < q1) (hq2 : 1 ≤ q2) : candidate d q1 q2 < candidate d p1 p2 := by
  rw [candidate_eq_sum hp1 hp21 hp2, candidate_eq_sum (hq.trans hp1) hq21 hq2]
  have h1 := two_mul_two_pow_le hq
  have h2 := two_mul_two_pow_le hq21
  have h3 := Nat.two_pow_pos p2
  omega

/-- For one `p1` the candidates fall with `p2` (R85). -/
theorem candidate_lt_of_p2_lt {d p1 p2 q2 : Nat} (hp1 : p1 < d) (hp21 : p2 < p1) (hq : q2 < p2) (hq2 : 1 ≤ q2) :
    candidate d p1 q2 < candidate d p1 p2 := by
  rw [candidate_eq_sum hp1 hp21 (by omega), candidate_eq_sum hp1 (hq.trans hp21) hq2]
  have := Nat.pow_lt_pow_right (a := 2) (by decide) hq
  omega

theorem candidates_pairwise (d : Nat) : (candidates d).Pairwise (fun a b => a > b) := by
  rw [candidates, List.pairwise_flatMap]
  constructor
  · intro p1 hp1
    rw [mem_downTo] at hp1
    rw [List.pairwise_map]
    refine (downTo_pairwise _ _).imp_of_mem fun {p2 q2} hp2 hq2 hlt => ?_
    rw [mem_downTo] at hp2 hq2
    exact candidate_lt_of_p2_lt (by omega) (by omega) hlt hq2.1
  · refine (downTo_pairwise _ _).imp_of_mem fun {p1 q1} hp1 hq1 hlt => ?_
    simp only [List.mem_map, mem_downTo] at hp1 hq1 ⊢
    rintro _ ⟨p2, hp2, rfl⟩ _ ⟨q2, hq2, rfl⟩
    exact candidate_lt_of_p1_lt (by omega) hlt (by omega) hp2.1 (by omega) hq2.1

theorem downTo_succ {hi lo : Nat} (h : lo ≤ hi + 1) : downTo (hi + 1) lo = (hi + 1) :: downTo hi lo := by
  have hlen : hi + 1 + 1 - lo = hi + 1 - lo + 1 := by omega
  have hlast : lo + 1 * (hi + 1 - lo) = hi + 1 := by omega
  rw [downTo, hlen, List.range'_concat, hlast, List.reverse_append]
  rfl

/-- For each `p1` there are `p1 - 1` values of `p2`: the triangle numbers. -/
theorem sum_downTo_pred (n : Nat) : ((downTo n 2).map (fun p1 => p1 - 1)).sum = n * (n - 1) / 2 := by
  induction n with
  | zero => rfl
  | succ n ih =>
    rw [Nat.triangle_succ]
    cases n with
    | zero => rfl
    | succ n => rw [downTo_succ (by omega), List.map_cons, List.sum_cons, ih, Nat.add_sub_cancel, Nat.add_comm]

theorem length_candidates (d : Nat) : (candidates d).length = (d - 1) * (d - 2) / 2 := by
  rw [candidates, List.length_flatMap]
  simp only [List.length_map, length_downTo]
  rw [show d - 2 = d - 1 - 1 by omega, ← sum_downTo_pred]
  congr 2

end Sys2Proof.Machine

namespace Sys2Proof
open Sys2Proof.Machine

/-- Settles O50: the candidates by their sums, their number by the triangle numbers. -/
theorem candidatesOfDegree : Obligations.CandidatesOfDegree := by
  refine ⟨fun d P => ?_, fun d _ => length_candidates d, ?_, rfl⟩
  · rw [mem_candidates_iff]
    exact exists_congr fun p1 => exists_congr fun p2 => and_congr_right fun h1 => and_congr_right fun h21 =>
      and_congr_right fun h2 => by rw [candidate_eq_sum h1 h21 h2, eq_comm]
  · simp only [length_candidates]
    rfl

end Sys2Proof
end

section
/-! The number of set bits of a candidate, and its remainder by `x + 1` (40_polynomial_cache.md R89). -/

namespace Sys2Proof.Machine

/-- A value whose set bits are the entries of `l` has as many of them (00_scope.md R9). -/
theorem popcount_eq_length {w : Nat} {v : BitVec w} {l : List Nat} (hl : l.Nodup)
    (hbits : ∀ i, v.getLsbD i = decide (i ∈ l)) : popcount v = l.length := by
  rw [popcount, List.countP_eq_length_filter]
  apply List.Perm.length_eq
  rw [List.perm_ext_iff_of_nodup (List.nodup_range.filter _) hl]
  intro i
  rw [List.mem_filter, List.mem_range, hbits, decide_eq_true_eq, and_iff_right_iff_imp]
  intro hi
  exact BitVec.lt_of_getLsbD (by rw [hbits, decide_eq_true_eq]; exact hi)

/-- A candidate has 4 set bits (R84), in every width that it fits in. -/
theorem popcount_of_mem_candidates {w d : Nat} {v : BitVec w} (h : v.toNat ∈ candidates d) : popcount v = 4 := by
  obtain ⟨p1, p2, h1, h21, h2, hv⟩ := (mem_candidates_iff d _).mp h
  have hnodup : [d, p1, p2, 0].Nodup := by
    simp only [List.nodup_cons, List.mem_cons, List.not_mem_nil, List.nodup_nil, or_false, not_false_eq_true,
      and_true]
    omega
  exact popcount_eq_length hnodup fun i => by rw [BitVec.getLsbD, ← hv, testBit_candidate]

theorem parity_toNat {w : Nat} (v : BitVec w) : (parity v).toNat = popcount v % 2 := by
  obtain h | h := Nat.mod_two_eq_zero_or_one (popcount v) <;> simp [parity, h]

theorem parity_twoPow {w k : Nat} (hk : k < w) : parity (BitVec.twoPow w k) = true := by
  have hone : popcount (BitVec.twoPow w k) = [k].length :=
    popcount_eq_length (List.nodup_singleton k) fun i => by simp [BitVec.getLsbD_twoPow, hk, eq_comm]
  rw [parity, hone]
  rfl

/-- A pass of the remainder by 3 flips two bits, and so keeps the parity (R89). -/
theorem exists_gf2_pass_by_three {w : Nat} (P : BitVec w) (h : 2 ≤ P.toNat) :
    ∃ Q : BitVec w, Q.toNat = P.toNat ^^^ 3 <<< (msb P.toNat - msb 3) ∧ parity Q = parity P := by
  have h0 : P.toNat ≠ 0 := by omega
  obtain ⟨k, hk⟩ : ∃ k, msb P.toNat = k + 1 := Nat.exists_eq_add_of_le' ((Nat.le_log2 h0).mpr h)
  have hkw : k + 1 < w := hk ▸ (Nat.log2_lt h0).mpr P.isLt
  have hflip : 3 <<< k = 2 ^ k ^^^ 2 ^ (k + 1) := by
    rw [show (3 : Nat) = 1 ^^^ 2 by rfl, Nat.shiftLeft_xor_distrib, Nat.one_shiftLeft, Nat.shiftLeft_eq, Nat.pow_succ']
  refine ⟨P ^^^ (BitVec.twoPow w k ^^^ BitVec.twoPow w (k + 1)), ?_, ?_⟩
  · rw [hk, show msb 3 = 1 by decide, Nat.add_sub_cancel, hflip, BitVec.toNat_xor, BitVec.toNat_xor,
      BitVec.toNat_twoPow_of_lt (by omega), BitVec.toNat_twoPow_of_lt hkw]
  · rw [parity_xor, parity_xor, parity_twoPow (by omega), parity_twoPow hkw]
    simp

/-- The remainder by 3 has the parity of the dividend: every pass keeps it. -/
theorem exists_gf2ModLoop_three {w : Nat} (fuel : Nat) (P : BitVec w) :
    ∃ Q : BitVec w, Q.toNat = gf2ModLoop fuel P.toNat 3 ∧ parity Q = parity P := by
  induction fuel generalizing P with
  | zero => exact ⟨P, rfl, rfl⟩
  | succ fuel ih =>
    rw [gf2ModLoop]
    split
    next hmore =>
      obtain ⟨P', hP', hpar⟩ := exists_gf2_pass_by_three P ((gf2_continues_iff _ 3).mp hmore)
      obtain ⟨Q, hQ, hQpar⟩ := ih P'
      exact ⟨Q, by rw [hQ, hP'], hQpar.trans hpar⟩
    next => exact ⟨P, rfl, rfl⟩

/-- A value of one bit is its own parity. -/
theorem parity_toNat_of_lt_two {w : Nat} {v : BitVec w} (h : v.toNat < 2) : (parity v).toNat = v.toNat := by
  obtain h0 | h1 : v.toNat = 0 ∨ v.toNat = 1 := by omega
  · have hzero : popcount v = [].length := popcount_eq_length List.nodup_nil fun i => by simp [BitVec.getLsbD, h0]
    rw [parity_toNat, hzero, h0]
    rfl
  · have hw : 0 < w := Nat.pos_of_ne_zero fun hw => by subst hw; have := v.isLt; omega
    have hone : v = BitVec.twoPow w 0 := BitVec.eq_of_toNat_eq (by rw [h1, BitVec.toNat_twoPow_of_lt hw])
    rw [h1, hone, parity_twoPow hw]
    rfl

/-- The remainder by `x + 1` is the parity of the set bits (R89). -/
theorem gf2Mod_three {w : Nat} (P : BitVec w) : gf2Mod P.toNat 3 = popcount P % 2 := by
  obtain ⟨Q, hQ, hpar⟩ := exists_gf2ModLoop_three (msb P.toNat + 1) P
  rw [← gf2Mod] at hQ
  have hlt : Q.toNat < 2 := hQ ▸ gf2Mod_lt (b := 3) (by decide)
  rw [← hQ, ← parity_toNat_of_lt_two hlt, hpar, parity_toNat]

/-- Every candidate is divisible by `x + 1`, as it has 4 set bits (R89). -/
theorem gf2Mod_three_of_mem_candidates {d P : Nat} (h : P ∈ candidates d) : gf2Mod P 3 = 0 := by
  have hP : (BitVec.ofNat (d + 1) P).toNat = P := by
    rw [BitVec.toNat_ofNat]
    exact Nat.mod_eq_of_lt (candidates_bounds h).2
  rw [← hP] at h ⊢
  rw [gf2Mod_three, popcount_of_mem_candidates h]

/-- 3 is tried on every candidate of degree 18 or more, and divides it (R89). -/
theorem passesTrial_three_of_mem_candidates {d P : Nat} (hd : 18 ≤ d) (h : P ∈ candidates d) :
    passesTrial P 3 = false := by
  obtain ⟨hlo, hhi⟩ := candidates_bounds h
  have hmsb : msb P = d := (msb_eq_iff (by have := Nat.two_pow_pos d; omega)).mpr ⟨hlo, hhi⟩
  have hreached : 3 < 2 ^ (msb P / 2 + 1) := by
    rw [hmsb]
    exact Nat.lt_of_lt_of_le (by decide : 3 < 2 ^ 2) (Nat.pow_le_pow_right (by decide) (by omega))
  rw [← Bool.not_eq_true, trialDivision P 3 rfl]
  intro hall
  exact hall 3 rfl (Nat.le_refl 3) hreached (gf2Mod_three_of_mem_candidates h)

end Sys2Proof.Machine
end

section
/-! The pool that the search builds (40_polynomial_cache.md R87 to R90). -/

namespace Sys2Proof.Machine

/-- A candidate of the search fits in the 25 bits of an entry. -/
theorem toNat_ofNat_of_mem_candidates {d p : Nat} (hd : d ≤ 24) (h : p ∈ candidates d) :
    (BitVec.ofNat 25 p).toNat = p := by
  rw [BitVec.toNat_ofNat]
  exact Nat.mod_eq_of_lt (Nat.lt_of_lt_of_le (candidates_bounds h).2 (Nat.pow_le_pow_right (by decide) (by omega)))

theorem polyDeg_of_mem_candidates {d : Nat} {P : Poly} (h : P.toNat ∈ candidates d) : polyDeg P = d :=
  polyDeg_of_bounds (candidates_bounds h).1 (candidates_bounds h).2

/-- The passing candidates of degree `d`, as entries of the pool (R87). -/
def passingOfDegree (m d : Nat) : List Poly :=
  ((candidates d).filter (fun p => passesTrial p m)).map (BitVec.ofNat 25)

theorem buildPool_eq (m : Nat) : buildPool m = (List.range' 18 7).flatMap (passingOfDegree m) := rfl

theorem mem_passingOfDegree_iff {m d : Nat} (hd : d ≤ 24) (P : Poly) :
    P ∈ passingOfDegree m d ↔ P.toNat ∈ candidates d ∧ passesTrial P.toNat m = true := by
  rw [passingOfDegree, List.mem_map]
  simp only [List.mem_filter]
  constructor
  · rintro ⟨p, ⟨hp, hpass⟩, rfl⟩
    rw [toNat_ofNat_of_mem_candidates hd hp]
    exact ⟨hp, hpass⟩
  · intro h
    exact ⟨P.toNat, h, by rw [BitVec.ofNat_toNat, BitVec.setWidth_eq]⟩

theorem mem_degrees_iff (d : Nat) : d ∈ List.range' 18 7 ↔ 18 ≤ d ∧ d ≤ 24 := by
  rw [List.mem_range'_1]
  omega

/-- The entries of a built pool (R87, R90). -/
theorem mem_buildPool_iff (m : Nat) (P : Poly) :
    P ∈ buildPool m ↔ (∃ d, 18 ≤ d ∧ d ≤ 24 ∧ P.toNat ∈ candidates d) ∧ passesTrial P.toNat m = true := by
  rw [buildPool_eq, List.mem_flatMap]
  constructor
  · rintro ⟨d, hd, hP⟩
    rw [mem_degrees_iff] at hd
    obtain ⟨hc, hpass⟩ := (mem_passingOfDegree_iff hd.2 P).mp hP
    exact ⟨⟨d, hd.1, hd.2, hc⟩, hpass⟩
  · rintro ⟨⟨d, hmin, hmax, hc⟩, hpass⟩
    exact ⟨d, (mem_degrees_iff d).mpr ⟨hmin, hmax⟩, (mem_passingOfDegree_iff hmax P).mpr ⟨hc, hpass⟩⟩

/-- A candidate of degree 18 to 24 is an admissible entry (10_state.md R27). -/
theorem admissibleEntry_of_mem_candidates {d : Nat} {P : Poly} (hmin : 18 ≤ d) (hmax : d ≤ 24)
    (h : P.toNat ∈ candidates d) : admissibleEntry P = true := by
  obtain ⟨p1, p2, h1, h21, h2, hP⟩ := (mem_candidates_iff d _).mp h
  have hbit : P.getLsbD 0 = true := by
    rw [BitVec.getLsbD, ← hP, testBit_candidate]
    simp
  rw [admissibleEntry_iff, polyDeg_of_mem_candidates h]
  exact ⟨hmin, hmax, hbit, popcount_of_mem_candidates h⟩

/-- A built pool has at most as many entries as there are candidates (R84). -/
theorem length_buildPool_le (m : Nat) : (buildPool m).length ≤ 1344 := by
  have hle : ∀ d, (passingOfDegree m d).length ≤ (candidates d).length := by
    intro d
    rw [passingOfDegree, List.length_map]
    exact List.length_filter_le _ _
  calc (buildPool m).length
      = ((List.range' 18 7).map (fun d => (passingOfDegree m d).length)).sum := by
        rw [buildPool_eq, List.length_flatMap]
    _ ≤ ((List.range' 18 7).map (fun d => (candidates d).length)).sum := List.sum_le_sum fun d _ => hle d
    _ = 1344 := by
        obtain ⟨-, -, hcounts, htotal⟩ := candidatesOfDegree
        exact (congrArg List.sum hcounts).trans htotal

theorem passingOfDegree_pairwise {d : Nat} (hd : d ≤ 24) (m : Nat) :
    (passingOfDegree m d).Pairwise (fun a b => a.toNat > b.toNat) := by
  rw [passingOfDegree, List.pairwise_map]
  refine ((candidates_pairwise d).filter _).imp_of_mem fun hp hq hlt => ?_
  rw [toNat_ofNat_of_mem_candidates hd (List.mem_of_mem_filter hp),
    toNat_ofNat_of_mem_candidates hd (List.mem_of_mem_filter hq)]
  exact hlt

theorem polyDeg_of_mem_passingOfDegree {m d : Nat} (hd : d ≤ 24) {P : Poly} (h : P ∈ passingOfDegree m d) :
    polyDeg P = d := polyDeg_of_mem_candidates ((mem_passingOfDegree_iff hd P).mp h).1

theorem buildPool_three : buildPool 3 = [] := by
  apply List.eq_nil_iff_forall_not_mem.mpr
  intro P hP
  obtain ⟨⟨d, hmin, -, hc⟩, hpass⟩ := (mem_buildPool_iff 3 P).mp hP
  rw [passesTrial_three_of_mem_candidates hmin hc] at hpass
  cases hpass

end Sys2Proof.Machine

namespace Sys2Proof
open Sys2Proof.Machine

/-- Settles O51: within a degree by `candidates_pairwise`, which the filter keeps; between degrees the degree of an entry
is that of its part of the search. -/
theorem candidateOrder : Obligations.CandidateOrder := by
  refine ⟨candidates_pairwise, fun m => ?_⟩
  rw [buildPool_eq, List.pairwise_flatMap]
  constructor
  · intro d hd
    have hmax := ((mem_degrees_iff d).mp hd).2
    refine (passingOfDegree_pairwise hmax m).imp_of_mem fun ha hb hgt => .inr ⟨?_, hgt⟩
    rw [polyDeg_of_mem_passingOfDegree hmax ha, polyDeg_of_mem_passingOfDegree hmax hb]
  · refine List.Pairwise.imp_of_mem (fun hd he hlt a ha b hb => .inl ?_) List.pairwise_lt_range'
    rwa [polyDeg_of_mem_passingOfDegree ((mem_degrees_iff _).mp hd).2 ha,
      polyDeg_of_mem_passingOfDegree ((mem_degrees_iff _).mp he).2 hb]

/-- Settles O52: every entry is a candidate of a degree from 18 to 24, and there are 1344 of those. -/
theorem builtPoolIsAdmissible : Obligations.BuiltPoolIsAdmissible := by
  refine fun m => ⟨?_, mem_buildPool_iff m⟩
  rw [admissiblePool, Bool.and_eq_true, List.all_eq_true, decide_eq_true_eq]
  refine ⟨fun P hP => ?_, (length_buildPool_le m).trans (by decide)⟩
  obtain ⟨⟨d, hmin, hmax, hc⟩, -⟩ := (mem_buildPool_iff m P).mp hP
  exact admissibleEntry_of_mem_candidates hmin hmax hc

/-- Settles O53: a pass by 3 keeps the parity, which is even for a candidate, so the search finds none that passes. -/
theorem normativePoolIsEmpty : Obligations.NormativePoolIsEmpty :=
  ⟨fun _ => gf2Mod_three,
    fun _ _ hd h => ⟨gf2Mod_three_of_mem_candidates h, passesTrial_three_of_mem_candidates hd h⟩,
    buildPool_three, buildPool_three.symm⟩

end Sys2Proof
end

section
/-! SUPPORT. What a running instance does when the rule of its command completes or raises, and the rules of the engine,
one lemma per branch (41_lfsr_engine.md R115 to R118, 60_exceptions.md R151, R153). -/

namespace Sys2Proof.Machine

/-- A running instance whose rule completes is left with the rule's registers and answers its response. -/
theorem exec_of_completes (i : Instr) {s : State} {r r' : Inst} {w : Word} (hc : s.current = some r)
    (hf : r.fault = 0#4) (h : ruleOf i s r = .completes r' w) : exec i s = .next (s.answered r' w) := by
  rw [exec_of_current hc, if_neg (by simp [hf]), h, settle_completes, respond_putInst_eq_answered]

/-- A running instance whose rule raises a fault records the code and answers it (60_exceptions.md R151). -/
theorem exec_of_raises (i : Instr) {s : State} {r : Inst} {c : Cause} (hc : s.current = some r) (hf : r.fault = 0#4)
    (h : ruleOf i s r = .raises c) :
    exec i s = .next (s.answered { r with fault := causeCode c } (errorResponse (causeCode c))) := by
  rw [exec_of_current hc, if_neg (by simp [hf]), h, settle_raises, raiseFault_of_running _ _ _ hf,
    respond_putInst_eq_answered]

/-- Two states in which a command's rule ends alike on the registers of the addressed instance give equal registers and
equal answers. -/
theorem exec_eq_answered_of_rule_eq {i : Instr} {s s' : State} {r : Inst} (hc : s.current = some r)
    (hc' : s'.current = some r) (hrule : ruleOf i s r = ruleOf i s' r) :
    ∃ q w, exec i s = .next (s.answered q w) ∧ exec i s' = .next (s'.answered q w) := by
  rw [exec_of_current hc, exec_of_current hc', hrule]
  split
  next => exact ⟨r, _, by rw [respond_eq_answered hc], by rw [respond_eq_answered hc']⟩
  next =>
    obtain ⟨q, w, hsettle⟩ := settle_eq_answered r (ruleOf i s' r)
    exact ⟨q, w, by rw [hsettle], by rw [hsettle]⟩

/-- Only the rules of SELECT and SEED look at the draw (41_lfsr_engine.md R119). -/
theorem ruleOf_with_draw {i : Instr} (hselect : i ≠ .select) (hseed : i ≠ .seed) (s : State) (draw : Nat) :
    ruleOf i s = ruleOf i { s with draw := draw } := by
  cases i with
  | select => exact absurd rfl hselect
  | seed => exact absurd rfl hseed
  | step | ldtaps | ldreg | readTaps | readDeg | readReg | readFault | readPoolcount | readPool => rfl

/-- A mask with a set bit is not 0. -/
theorem ne_zero_of_two_pow_le {t : Word24} {d : Nat} (h : 2 ^ d ≤ t.toNat) : t ≠ 0#24 := by
  rintro rfl
  exact absurd h (Nat.not_le.mpr (Nat.two_pow_pos d))

theorem stepRule_of_unconfigured {r : Inst} (ht : r.taps = 0#24) : stepRule r = .raises .notConfigured :=
  if_pos ((deg_eq_zero_iff _).mpr ht)

theorem stepRule_of_unseeded {r : Inst} (ht : r.taps ≠ 0#24) (hr : r.reg = 0#24) : stepRule r = .raises .unseeded := by
  rw [stepRule, if_neg (mt (deg_eq_zero_iff _).mp ht), if_pos hr]

theorem ldtapsRule_zero (r : Inst) : ldtapsRule 0#24 r = .raises .zeroTaps := if_pos rfl

theorem ldtapsRule_of_ne_zero {imm : Word24} (h : imm ≠ 0#24) (r : Inst) :
    ldtapsRule imm r = .completes { r with taps := imm, reg := 0#24 } (configResponse (deg imm) imm) := by
  rw [ldtapsRule, if_neg h, deg_eq_msb_succ imm h]

theorem ldregRule_of_unconfigured {r : Inst} (ht : r.taps = 0#24) (imm : Word24) :
    ldregRule imm r = .raises .notConfigured := if_pos ((deg_eq_zero_iff _).mpr ht)

theorem ldregRule_zero {r : Inst} (ht : r.taps ≠ 0#24) : ldregRule 0#24 r = .raises .zeroSeed := by
  rw [ldregRule, if_neg (mt (deg_eq_zero_iff _).mp ht), if_pos rfl]

theorem ldregRule_of_out_of_range {r : Inst} {imm : Word24} (ht : r.taps ≠ 0#24) (h : 2 ^ deg r.taps ≤ imm.toNat) :
    ldregRule imm r = .raises .seedRange := by
  rw [ldregRule, if_neg (mt (deg_eq_zero_iff _).mp ht), if_neg (ne_zero_of_two_pow_le h), if_pos h]

theorem ldregRule_of_in_range {r : Inst} {imm : Word24} (ht : r.taps ≠ 0#24) (h0 : imm ≠ 0#24)
    (h : imm.toNat < 2 ^ deg r.taps) : ldregRule imm r = .completes { r with reg := imm } (regResponse imm) := by
  rw [ldregRule, if_neg (mt (deg_eq_zero_iff _).mp ht), if_neg h0, if_neg (Nat.not_le.mpr h)]

theorem seedRule_of_unconfigured {r : Inst} (ht : r.taps = 0#24) (draw : Nat) :
    seedRule draw r = .raises .notConfigured := if_pos ((deg_eq_zero_iff _).mpr ht)

theorem seedRule_of_configured {r : Inst} (ht : r.taps ≠ 0#24) (draw : Nat) :
    seedRule draw r =
      .completes { r with reg := drawSeed draw (deg r.taps) } (regResponse (drawSeed draw (deg r.taps))) :=
  if_neg (mt (deg_eq_zero_iff _).mp ht)

end Sys2Proof.Machine
end

section
/-! SUPPORT. The step function as arithmetic, as a linear map and as a bijection (41_lfsr_engine.md R110 to R114). -/

namespace Sys2Proof.Machine

theorem feedback_eq_decide (r t : Word24) : feedback r t = decide (popcount (r &&& t) % 2 = 1) := rfl

/-- Bit 0 of the new register is the feedback bit (41_lfsr_engine.md R111). -/
theorem getLsbD_stepFn_zero {r t : Word24} (ht : t ≠ 0#24) : (stepFn r t).1.getLsbD 0 = feedback r t := by
  have hd : 0 < deg t := Nat.pos_of_ne_zero (mt (deg_eq_zero_iff t).mp ht)
  rw [getLsbD_stepFn]
  simp [hd]

/-- The bits below the highest tap move up by one (41_lfsr_engine.md R111). -/
theorem getLsbD_stepFn_succ {r t : Word24} {i : Nat} (h : i + 2 ≤ deg t) :
    (stepFn r t).1.getLsbD (i + 1) = r.getLsbD i := by
  have hd24 := deg_le t
  have h24 : i + 1 < 24 := by omega
  have hd : i + 1 < deg t := by omega
  rw [getLsbD_stepFn]
  simp [h24, hd]

/-- The output bit is the feedback bit (41_lfsr_engine.md R112). -/
theorem stepFn_out_eq_feedback {r t : Word24} (ht : t ≠ 0#24) : (stepFn r t).2 = feedback r t := by
  rw [stepFn_out, getLsbD_stepFn_zero ht]

/-- The new register as a number: twice the old one plus the feedback bit, in `DEG` bits (41_lfsr_engine.md R110). -/
theorem stepFn_toNat (r t : Word24) :
    (stepFn r t).1.toNat = (2 * r.toNat + popcount (r &&& t) % 2) % 2 ^ deg t := by
  rw [← feedback_toNat, ← Nat.bit_val]
  apply Nat.eq_of_testBit_eq
  intro i
  rw [Nat.testBit_mod_two_pow, ← BitVec.getLsbD, getLsbD_stepFn]
  have hwidth : i < deg t → i < 24 := fun h => h.trans_le (deg_le t)
  cases i with
  | zero => simp
  | succ i => by_cases hd : i + 1 < deg t <;> simp [hd, hwidth, Nat.testBit_bit_succ, BitVec.getLsbD]

theorem feedback_xor (r1 r2 t : Word24) : feedback (r1 ^^^ r2) t = (feedback r1 t ^^ feedback r2 t) := by
  have hdistrib : (r1 ^^^ r2) &&& t = (r1 &&& t) ^^^ (r2 &&& t) := by
    apply BitVec.eq_of_getLsbD_eq
    intro i _
    simp only [BitVec.getLsbD_and, BitVec.getLsbD_xor, Bool.and_xor_distrib_right]
  rw [feedback, hdistrib, parity_xor, feedback, feedback]

/-- The step is linear over GF(2) (41_lfsr_engine.md R114). -/
theorem stepFn_xor (r1 r2 t : Word24) : (stepFn (r1 ^^^ r2) t).1 = (stepFn r1 t).1 ^^^ (stepFn r2 t).1 := by
  apply BitVec.eq_of_getLsbD_eq
  intro i _
  simp only [BitVec.getLsbD_xor, getLsbD_stepFn, feedback_xor]
  cases decide (i < 24) && decide (i < deg t) with
  | false => rfl
  | true => by_cases h0 : i = 0 <;> simp [h0]

/-- A linear map takes 0 to 0. -/
theorem stepFn_zero (t : Word24) : stepFn 0#24 t = (0#24, false) := by
  have hreg : (stepFn 0#24 t).1 = 0#24 := by simpa using stepFn_xor 0#24 0#24 t
  refine Prod.ext hreg ?_
  rw [stepFn_out, hreg, BitVec.getLsbD_zero]

/-- The registers of `d` bits. -/
def registersOf (d : Nat) : Set Word24 := {r | r.toNat < 2 ^ d}

theorem xor_mem_registersOf {r1 r2 : Word24} {d : Nat} (h1 : r1 ∈ registersOf d) (h2 : r2 ∈ registersOf d) :
    r1 ^^^ r2 ∈ registersOf d := by
  rw [registersOf, Set.mem_ofPred_eq, BitVec.toNat_xor]
  exact Nat.xor_lt_two_pow h1 h2

/-- By linearity, two registers with the same step differ by one that steps to 0, which only 0 does. -/
theorem stepFn_injOn (t : Word24) : Set.InjOn (fun r => (stepFn r t).1) (registersOf (deg t)) := by
  intro r1 h1 r2 h2 heq
  have hstep : (stepFn (r1 ^^^ r2) t).1 = 0#24 := by
    rw [stepFn_xor, BitVec.xor_eq_zero_iff]
    exact heq
  exact BitVec.xor_eq_zero_iff.mp (eq_zero_of_stepFn_eq_zero (xor_mem_registersOf h1 h2) hstep)

/-- A one-to-one map of a finite set into itself is onto (41_lfsr_engine.md R113). -/
theorem stepFn_bijOn (t : Word24) :
    Set.BijOn (fun r => (stepFn r t).1) (registersOf (deg t)) (registersOf (deg t)) :=
  ((Set.toFinite _).injOn_iff_bijOn_of_mapsTo fun r _ => stepFn_lt r t).mp (stepFn_injOn t)

/-- Every register of `DEG` bits is the step of exactly one (41_lfsr_engine.md R113). -/
theorem existsUnique_stepFn_eq {n t : Word24} (hn : n.toNat < 2 ^ deg t) :
    ∃! r : Word24, r.toNat < 2 ^ deg t ∧ (stepFn r t).1 = n := by
  obtain ⟨-, hinj, hsurj⟩ := stepFn_bijOn t
  obtain ⟨r, hr, hrn⟩ := hsurj hn
  exact ⟨r, ⟨hr, hrn⟩, fun q ⟨hq, hqn⟩ => hinj hq hr (hqn.trans hrn.symm)⟩

/-- No number of steps takes a nonzero register to 0 (41_lfsr_engine.md R113). -/
theorem stepFn_iterate_ne_zero {r t : Word24} (k : Nat) (hlt : r.toNat < 2 ^ deg t) (hne : r ≠ 0#24) :
    (fun x => (stepFn x t).1)^[k] r ≠ 0#24 := by
  have hkeeps : Set.MapsTo (fun x => (stepFn x t).1) (registersOf (deg t) \ {0#24}) (registersOf (deg t) \ {0#24}) :=
    fun x ⟨hx, hx0⟩ => ⟨stepFn_lt x t, fun h => hx0 (eq_zero_of_stepFn_eq_zero hx h)⟩
  exact (hkeeps.iterate k ⟨hlt, hne⟩).2

/-- All the taps of a mask are within its degree. -/
theorem mask_deg_and (t : Word24) : mask (deg t) &&& t = t := by
  apply BitVec.eq_of_getLsbD_eq
  intro i hi
  rw [BitVec.getLsbD_and, getLsbD_mask]
  by_cases hd : i < deg t
  · simp [hi, hd]
  · simp [taps_high_bits t i (Nat.not_lt.mp hd)]

/-- The all-ones register feeds back the parity of the mask, so an odd mask shifts a 1 in for the 1 shifted out
(41_lfsr_engine.md R114). -/
theorem stepFn_mask {t : Word24} (hodd : popcount t % 2 = 1) : stepFn (mask (deg t)) t = (mask (deg t), true) := by
  have ht : t ≠ 0#24 := by
    rintro rfl
    revert hodd
    decide
  have hfb : feedback (mask (deg t)) t = true := by
    rw [feedback_eq_decide, mask_deg_and, hodd]
    rfl
  refine Prod.ext ?_ ((stepFn_out_eq_feedback ht).trans hfb)
  apply BitVec.eq_of_getLsbD_eq
  intro i hi
  rw [getLsbD_stepFn, hfb, getLsbD_mask, getLsbD_mask]
  by_cases hd : i < deg t
  · have hprev : i - 1 < 24 ∧ i - 1 < deg t := by omega
    simp [hi, hd, hprev]
  · simp [hd]

end Sys2Proof.Machine

namespace Sys2Proof
open Sys2Proof.Machine

/-- Settles O43: bit by bit; the bits from `DEG` up are clear as the result fits in `DEG` bits. -/
theorem stepShiftsTowardHighBit : Obligations.StepShiftsTowardHighBit := fun r t ht =>
  ⟨fun _ => getLsbD_stepFn_succ, getLsbD_stepFn_zero ht, (lt_two_pow_iff_high_bits _ _).mp (stepFn_lt r t)⟩

/-- Settles O44: both bits are the feedback bit. -/
theorem outputIsFeedback : Obligations.OutputIsFeedback := fun _ _ ht => ⟨stepFn_out_eq_feedback ht, rfl⟩

/-- Settles O45: the step is linear and only 0 steps to 0, so it is one-to-one on a finite set, and onto. -/
theorem stepFnIsBijection : Obligations.StepFnIsBijection := fun t _ =>
  ⟨fun r => stepFn_lt r t, fun _ => existsUnique_stepFn_eq, stepFn_zero t,
    fun _ k => stepFn_iterate_ne_zero k⟩

/-- Settles O46: the admissible masks by O25. -/
theorem stepFnIsLinear : Obligations.StepFnIsLinear :=
  ⟨stepFn_xor, fun _ => stepFn_mask, fun P hP => (admissibleTapMask P hP).1⟩

end Sys2Proof
end

section
/-! STEP, LDTAPS, LDREG and SEED on a running instance (41_lfsr_engine.md R115 to R119). -/

namespace Sys2Proof
open Sys2Proof.Machine

/-- Settles O26: the register by `stepFn_toNat`, the answer by `stepResponse_eq`. -/
theorem stepAdvancesRegister : Obligations.StepAdvancesRegister := by
  intro s r d hc hf hlo hhi hr
  have ht := ne_zero_of_two_pow_le hlo
  have hnat := stepFn_toNat r.reg r.taps
  rw [deg_of_bounds hlo hhi] at hnat
  have hreg : BitVec.ofNat 24 ((2 * r.reg.toNat + popcount (r.reg &&& r.taps) % 2) % 2 ^ (d + 1)) =
      (stepFn r.reg r.taps).1 := by
    rw [← hnat, BitVec.ofNat_toNat, BitVec.setWidth_eq]
  rw [exec_of_completes .step hc hf (stepRule_of_seeded ht hr), hreg, stepResponse_eq, stepFn_out_eq_feedback ht,
    feedback_toNat, hnat]

/-- Settles O28: the degree in the answer is that of the mask. -/
theorem ldtapsLoadsMask : Obligations.LdtapsLoadsMask := by
  intro s r imm d hc hf hlo hhi
  rw [exec_of_completes (.ldtaps imm) hc hf (ldtapsRule_of_ne_zero (ne_zero_of_two_pow_le hlo) r),
    configResponse_eq _ _ (deg_le imm), deg_of_bounds hlo hhi]

/-- Settles O30: a value in range passes the three checks of LDREG. -/
theorem ldregLoadsValue : Obligations.LdregLoadsValue := by
  intro s r imm d hc hf hlo hhi h0 hlt
  rw [← deg_of_bounds hlo hhi] at hlt
  rw [exec_of_completes (.ldreg imm) hc hf (ldregRule_of_in_range (ne_zero_of_two_pow_le hlo) h0 hlt), regResponse_eq]

/-- Settles O32: every draw is in the range, and each value of the range is some draw. -/
theorem seedLoadsDrawnValue : Obligations.SeedLoadsDrawnValue := by
  intro s r d hc hf hlo hhi
  have hdeg := deg_of_bounds hlo hhi
  have hseed : ∀ draw, exec .seed { s with draw := draw } =
      .next (({ s with draw := draw } : State).answered { r with reg := drawSeed draw (d + 1) }
        (BitVec.ofNat 32 (drawSeed draw (d + 1)).toNat)) := by
    intro draw
    rw [exec_of_completes .seed (s := { s with draw := draw }) hc hf
      (seedRule_of_configured (ne_zero_of_two_pow_le hlo) draw), hdeg, regResponse_eq]
  have hle : d + 1 ≤ 24 := hdeg ▸ deg_le r.taps
  obtain ⟨hpos, hlt⟩ := drawSeed_range s.draw (Nat.succ_pos d) hle
  refine ⟨⟨_, hpos, hlt, hseed s.draw⟩, fun v hv hvlt => ⟨v.toNat - 1, ?_⟩⟩
  rw [hseed, drawSeed_of_range hv hvlt]

/-- Settles O35: the rule of STEP sees the registers only, and no rule but those of SELECT and SEED sees the draw. -/
theorem stepIsDeterministic : Obligations.StepIsDeterministic := by
  constructor
  · intro s s' r r' hc hc' hf hf' htaps hreg
    have hsame : r = r' := (Inst.mk.injEq ..).mpr ⟨htaps, hreg, hf.trans hf'.symm⟩
    subst hsame
    exact exec_eq_answered_of_rule_eq hc hc' rfl
  · intro i s r draw hselect hseed hc
    exact exec_eq_answered_of_rule_eq (s' := { s with draw := draw }) hc hc
      (congrFun (ruleOf_with_draw hselect hseed s draw) r)

/-- Settles O27: the two checks of STEP in order. -/
theorem stepFaults : Obligations.StepFaults := fun _ _ hc hf =>
  ⟨fun ht => exec_of_raises .step hc hf (stepRule_of_unconfigured ht),
    fun ht hr => exec_of_raises .step hc hf (stepRule_of_unseeded ht hr)⟩

/-- Settles O29: the check of LDTAPS. -/
theorem ldtapsZeroFaults : Obligations.LdtapsZeroFaults := fun _ r hc hf =>
  exec_of_raises (.ldtaps 0#24) hc hf (ldtapsRule_zero r)

/-- Settles O31: the three checks of LDREG in order; a value past the range passes the first two. -/
theorem ldregFaults : Obligations.LdregFaults := by
  intro s r imm hc hf
  refine ⟨fun ht => exec_of_raises (.ldreg imm) hc hf (ldregRule_of_unconfigured ht imm), ?_, ?_⟩
  · rintro ht rfl
    exact exec_of_raises (.ldreg 0#24) hc hf (ldregRule_zero ht)
  · intro d hlo hhi hrange
    rw [← deg_of_bounds hlo hhi] at hrange
    exact exec_of_raises (.ldreg imm) hc hf (ldregRule_of_out_of_range (ne_zero_of_two_pow_le hlo) hrange)

/-- Settles O33: the check of SEED. -/
theorem seedFaultsUnconfigured : Obligations.SeedFaultsUnconfigured := fun s _ hc hf ht =>
  exec_of_raises .seed hc hf (seedRule_of_unconfigured ht s.draw)

end Sys2Proof
end

section
/-! SUPPORT. The value a READ answers, and the rule of READ POOL within the cache and past its end
(42_register_access.md R140, 60_exceptions.md R151, R154). -/

namespace Sys2Proof.Machine

/-- A READ of a value answers it and changes nothing, on a halted instance too. -/
theorem exec_read_of_value {i : Instr} {s : State} {r : Inst} {value : Inst → BitVec 25} (hi : i.isRead = true)
    (hc : s.current = some r) (h : ruleOf i s = readRule value) :
    exec i s = .next (s.replied (BitVec.ofNat 32 (value r).toNat)) := by
  rw [← readResponse_eq]
  exact exec_read_of_completes hi hc (congrFun h r)

/-- A READ of a register of at most 25 bits answers it whole. -/
theorem exec_read_of_register {i : Instr} {s : State} {r : Inst} {w : Nat} (register : Inst → BitVec w) (hw : w ≤ 25)
    (hi : i.isRead = true) (hc : s.current = some r)
    (h : ruleOf i s = readRule (fun r => (register r).setWidth 25)) :
    exec i s = .next (s.replied (BitVec.ofNat 32 (register r).toNat)) := by
  rw [exec_read_of_value hi hc h, BitVec.toNat_setWidth_of_le hw]

/-- READ DEG answers the derived degree, which no register holds (10_state.md R22). -/
theorem exec_readDeg {s : State} {r : Inst} (hc : s.current = some r) :
    exec .readDeg s = .next (s.replied (BitVec.ofNat 32 (deg r.taps))) := by
  have hdeg : deg r.taps < 2 ^ 25 := Nat.lt_of_le_of_lt (deg_le r.taps) (by decide)
  rw [exec_read_of_value rfl hc rfl, BitVec.toNat_ofNat, Nat.mod_eq_of_lt hdeg]

theorem readPoolRule_of_entry {s : State} {imm : Word24} {P : Poly} (hP : s.pool[imm.toNat]? = some P) (r : Inst) :
    readPoolRule s imm r = .completes r (readResponse P) := by
  have hlt : imm.toNat < s.poolCount := (List.getElem?_eq_some_iff.mp hP).1
  rw [readPoolRule, if_neg (Nat.not_le.mpr hlt), State.poolRead, List.getD_eq_getElem?_getD, hP, Option.getD_some]

theorem readPoolRule_past_end {s : State} {imm : Word24} (h : s.pool.length ≤ imm.toNat) (r : Inst) :
    readPoolRule s imm r = .raises .poolIndex := if_pos h

/-- A READ whose rule raises a fault on a halted instance keeps the first code and answers it
(60_exceptions.md R151). -/
theorem exec_read_of_raises_halted {i : Instr} {s : State} {r : Inst} {c : Cause} (hi : i.isRead = true)
    (hc : s.current = some r) (hf : r.fault ≠ 0#4) (h : ruleOf i s r = .raises c) :
    exec i s = .next (s.replied (errorResponse r.fault)) := by
  rw [exec_of_current hc, if_neg (by simp [hi]), h, settle_raises, raiseFault_of_halted c r s hf,
    s.putInst_current r hc, respond_eq_replied]

end Sys2Proof.Machine
end

section
/-! The six READs (42_register_access.md R140). -/

namespace Sys2Proof
open Sys2Proof.Machine

/-- Settles O37: each register and an admissible count fit in the 25 bits of a READ; the degree is that of the
highest tap. -/
theorem readAnswersRegister : Obligations.ReadAnswersRegister := by
  intro s r hc
  have hdeg := exec_readDeg hc
  refine ⟨?taps, fun ht => ?unconfigured, fun d hlo hhi => ?configured, ?reg, ?fault, fun hcount => ?count⟩
  case taps => exact exec_read_of_register Inst.taps (by decide) rfl hc rfl
  case unconfigured => rwa [ht, deg_zero] at hdeg
  case configured => rwa [deg_of_bounds hlo hhi] at hdeg
  case reg => exact exec_read_of_register Inst.reg (by decide) rfl hc rfl
  case fault => exact exec_read_of_register Inst.fault (by decide) rfl hc rfl
  case count =>
    have hfits : s.poolCount < 2 ^ 25 := Nat.lt_of_le_of_lt hcount (by decide)
    rw [exec_read_of_value rfl hc rfl, BitVec.toNat_ofNat, Nat.mod_eq_of_lt hfits, State.poolCount]

/-- Settles O38: within the cache the rule of READ POOL completes with the entry. -/
theorem readPoolAnswersEntry : Obligations.ReadPoolAnswersEntry := by
  intro s r imm P hc hP
  rw [← readResponse_eq]
  exact exec_read_of_completes rfl hc (readPoolRule_of_entry hP r)

/-- Settles O39: past the end the rule of READ POOL raises, and fault entry records a code only while `FAULT` is 0. -/
theorem readPoolPastEnd : Obligations.ReadPoolPastEnd := by
  intro s r imm hc hend
  have hrule : ruleOf (.readPool imm) s r = .raises .poolIndex := readPoolRule_past_end hend r
  refine ⟨fun hf => exec_of_raises (.readPool imm) hc hf hrule, fun hf => ?_⟩
  rw [exec_read_of_raises_halted rfl hc hf hrule, errorResponse_eq]

end Sys2Proof
end

section
/-! SUPPORT. What the fault entry and the halted check leave of a command: the code of each rule's ending, the answers with
`ERR` set, and what a halted instance does (60_exceptions.md R150 to R154). -/

namespace Sys2Proof.Machine

/-- The code that the ending of a rule leaves in a `FAULT` of 0 (60_exceptions.md R150). -/
def Ending.code : Ending → Code
  | .completes _ _ => 0#4
  | .raises c => causeCode c

/-- No rule writes `FAULT` itself: only fault entry does (10_state.md R25). -/
theorem rule_keeps_fault {i : Instr} {s : State} {r r' : Inst} {w : Word} (h : ruleOf i s r = .completes r' w) :
    r'.fault = r.fault := by
  cases i with
  | select => simp only [ruleOf, selectRule] at h; split_ifs at h; cases h; rfl
  | seed => simp only [ruleOf, seedRule] at h; split_ifs at h; cases h; rfl
  | step => simp only [ruleOf, stepRule] at h; split_ifs at h; cases h; rfl
  | ldtaps imm => simp only [ruleOf, ldtapsRule] at h; split_ifs at h; cases h; rfl
  | ldreg imm => simp only [ruleOf, ldregRule] at h; split_ifs at h; cases h; rfl
  | readTaps | readDeg | readReg | readFault | readPoolcount | readPool => rw [read_rule_keeps rfl h]

/-- A running instance is left with the code of its command's ending. -/
theorem exec_leaves_code (i : Instr) {s : State} {r : Inst} (hc : s.current = some r) (hf : r.fault = 0#4) :
    ∃ t r', exec i s = .next t ∧ t.insts[s.port]? = some r' ∧ r'.fault = (ruleOf i s r).code := by
  cases hrule : ruleOf i s r with
  | completes r' w =>
    exact ⟨_, r', exec_of_completes i hc hf hrule, State.current_answered hc r' w, (rule_keeps_fault hrule).trans hf⟩
  | raises c => exact ⟨_, _, exec_of_raises i hc hf hrule, State.current_answered hc _ _, rfl⟩

theorem selectRule_code (s : State) (r : Inst) : (selectRule s r).code = if s.pool = [] then 7#4 else 0#4 := by
  simp only [selectRule, State.poolCount, List.length_eq_zero_iff]
  split <;> rfl

theorem seedRule_code (draw : Nat) (r : Inst) : (seedRule draw r).code = if r.taps = 0#24 then 2#4 else 0#4 := by
  simp only [seedRule, deg_eq_zero_iff]
  split <;> rfl

theorem stepRule_code (r : Inst) :
    (stepRule r).code = if r.taps = 0#24 then 2#4 else if r.reg = 0#24 then 3#4 else 0#4 := by
  simp only [stepRule, deg_eq_zero_iff]
  split_ifs <;> rfl

theorem ldtapsRule_code (imm : Word24) (r : Inst) : (ldtapsRule imm r).code = if imm = 0#24 then 4#4 else 0#4 := by
  rw [ldtapsRule]
  split <;> rfl

theorem ldregRule_code (imm : Word24) (r : Inst) :
    (ldregRule imm r).code =
      if r.taps = 0#24 then 2#4 else if imm = 0#24 then 5#4 else if 2 ^ deg r.taps ≤ imm.toNat then 6#4 else 0#4 := by
  simp only [ldregRule, deg_eq_zero_iff]
  split_ifs <;> rfl

theorem readPoolRule_code (s : State) (imm : Word24) (r : Inst) :
    (readPoolRule s imm r).code = if s.pool.length ≤ imm.toNat then 8#4 else 0#4 := by
  rw [readPoolRule, State.poolCount]
  split <;> rfl

/-- The answer of SELECT and LDTAPS has `ERR` clear: a degree is at most 24. -/
theorem configResponse_lt {d : Nat} (hd : d ≤ 24) (t : Word24) : (configResponse d t).toNat < 2 ^ 31 := by
  have ht := t.isLt
  rw [configResponse_eq d t hd, BitVec.toNat_ofNat]
  omega

theorem regResponse_lt (t : Word24) : (regResponse t).toNat < 2 ^ 31 := by
  have ht := t.isLt
  rw [regResponse_eq, BitVec.toNat_ofNat]
  omega

theorem stepResponse_lt (b : Bool) (t : Word24) : (stepResponse b t).toNat < 2 ^ 31 := by
  have ht := t.isLt
  have hb := b.toNat_le
  rw [stepResponse_eq, BitVec.toNat_ofNat]
  omega

theorem readResponse_lt (v : BitVec 25) : (readResponse v).toNat < 2 ^ 31 := by
  have hv := v.isLt
  rw [readResponse_eq, BitVec.toNat_ofNat]
  omega

/-- A command that completes answers with `ERR`, bit 31, clear (30_encoding.md R66). -/
theorem rule_response_lt {i : Instr} {s : State} {r r' : Inst} {w : Word} (h : ruleOf i s r = .completes r' w) :
    w.toNat < 2 ^ 31 := by
  cases i with
  | select => simp only [ruleOf, selectRule] at h; split_ifs at h; cases h; exact configResponse_lt (polyDeg_le _) _
  | seed => simp only [ruleOf, seedRule] at h; split_ifs at h; cases h; exact regResponse_lt _
  | step => simp only [ruleOf, stepRule] at h; split_ifs at h; cases h; exact stepResponse_lt _ _
  | ldtaps imm =>
    by_cases h0 : imm = 0#24
    · subst h0; cases (ldtapsRule_zero r).symm.trans h
    · cases (ldtapsRule_of_ne_zero h0 r).symm.trans h; exact configResponse_lt (deg_le imm) imm
  | ldreg imm => simp only [ruleOf, ldregRule] at h; split_ifs at h; cases h; exact regResponse_lt _
  | readPool imm => simp only [ruleOf, readPoolRule] at h; split_ifs at h; cases h; exact readResponse_lt _
  | readTaps | readDeg | readReg | readFault | readPoolcount => cases h; exact readResponse_lt _

/-- A command completes by its rule, or it answers the code then in `FAULT` and writes nothing else: the code that was
there, or one of 1 to 8 where there was none (60_exceptions.md R151, R152). -/
theorem exec_completes_or_errs {i : Instr} {s t : State} {r : Inst} (hc : s.current = some r) (h : exec i s = .next t) :
    (∃ r' w, ruleOf i s r = .completes r' w ∧ t = s.answered r' w) ∨
    (∃ c : Code, c ≠ 0#4 ∧ t = s.answered { r with fault := c } (errorResponse c) ∧
      (r.fault ≠ 0#4 → c = r.fault) ∧ (r.fault = 0#4 → c.toNat ≤ 8)) := by
  rw [exec_of_current hc] at h
  split at h
  next hrefused =>
    cases h
    exact .inr ⟨r.fault, hrefused.2, respond_eq_answered hc _, fun _ => rfl, fun hf => absurd hf hrefused.2⟩
  next =>
    cases h
    cases hrule : ruleOf i s r with
    | completes r' w => exact .inl ⟨r', w, rfl, rfl⟩
    | raises c =>
      obtain ⟨hcode, hle⟩ := causeCode_range c
      by_cases hf : r.fault = 0#4
      · exact .inr ⟨causeCode c, hcode, raiseFault_of_running c r s hf, fun hn => absurd hf hn, fun _ => hle⟩
      · exact .inr ⟨r.fault, hf, raiseFault_of_halted c r s hf, fun _ => rfl, fun h0 => absurd h0 hf⟩

/-- A halted instance answers every command and changes nothing (60_exceptions.md R152, R154). -/
theorem exec_of_halted (i : Instr) {s : State} {r : Inst} (hc : s.current = some r) (hf : r.fault ≠ 0#4) :
    ∃ v, exec i s = .next (s.replied v) := by
  cases hi : i.isRead with
  | false => exact ⟨_, by rw [exec_of_current hc, if_pos ⟨hi, hf⟩, respond_eq_replied]⟩
  | true =>
    cases hrule : ruleOf i s r with
    | completes r' w =>
      obtain rfl := read_rule_keeps hi hrule
      exact ⟨w, exec_read_of_completes hi hc hrule⟩
    | raises c => exact ⟨_, exec_read_of_raises_halted hi hc hf hrule⟩

/-- A halted instance refuses an illegal word (30_encoding.md R64, 60_exceptions.md R152). -/
theorem execIllegal_of_halted {s : State} {r : Inst} (hc : s.current = some r) (hf : r.fault ≠ 0#4) :
    execIllegal s = .next (s.replied (errorResponse r.fault)) := runCommand_halted _ hc hf

theorem execWord_of_illegal {w : Word} (hw : decode w = none) (s : State) : execWord w s = execIllegal s := by
  rw [execWord, hw]

theorem execWord_of_decoded {w : Word} {i : Instr} (hw : decode w = some i) (s : State) : execWord w s = exec i s := by
  rw [execWord, hw]

/-- A halted instance answers every word, an illegal one too, and changes nothing. -/
theorem execWord_of_halted (w : Word) {s : State} {r : Inst} (hc : s.current = some r) (hf : r.fault ≠ 0#4) :
    ∃ v, execWord w s = .next (s.replied v) := by
  cases hw : decode w with
  | none => exact ⟨_, (execWord_of_illegal hw s).trans (execIllegal_of_halted hc hf)⟩
  | some i =>
    obtain ⟨v, hv⟩ := exec_of_halted i hc hf
    exact ⟨v, (execWord_of_decoded hw s).trans hv⟩

theorem step_of_host_nil {s : State} (hh : s.host = []) : step s = .next s := by
  rw [step, fetch, hh]

end Sys2Proof.Machine
end

section
/-! Faults, the halted state, and the port that no instance has (60_exceptions.md R150 to R154, R160). -/

namespace Sys2Proof
open Sys2Proof.Machine

/-- Settles O15: every command but a READ, and an illegal word, goes through the halted check. -/
theorem haltedInstanceRefuses : Obligations.HaltedInstanceRefuses := by
  constructor
  · intro i s r hc hf hi
    rw [← errorResponse_eq, exec_of_current hc, if_pos ⟨hi, hf⟩, respond_eq_replied]
  · intro s r p d w rest hh hr hf hw
    have hc : (s.accept p w d rest).current = some r := hr
    rw [← errorResponse_eq, step_eq_execWord hh, execWord_of_illegal hw, execIllegal_of_halted hc hf]

/-- Settles O16: an event for another instance leaves this one alone, a command of its own is answered without a write
(`execWord_of_halted`), and its own reset is ruled out. -/
theorem onlyResetLeavesHalted : Obligations.OnlyResetLeavesHalted := by
  intro s t k r h hr hf hreset
  cases hh : s.host with
  | nil =>
    cases (step_of_host_nil hh).symm.trans h
    exact hr
  | cons e rest =>
    cases he : e.isFor k with
    | false => exact (step_of_other_port hh he h).1.trans hr
    | true =>
      cases e with
      | reset p =>
        obtain rfl : p = k := by simpa [HostEvent.isFor] using he
        exact absurd (congrArg List.head? hh) hreset
      | command p w d =>
        obtain rfl : p = k := by simpa [HostEvent.isFor] using he
        obtain ⟨v, hv⟩ := execWord_of_halted w (s := s.accept p w d rest) hr hf
        rw [step_eq_execWord hh, hv] at h
        cases h
        exact hr

/-- Settles O17: the code left is that of the rule's ending (`exec_leaves_code`), and each rule makes its checks in the
order of R153. -/
theorem faultCodeOfEachCommand : Obligations.FaultCodeOfEachCommand := by
  intro i s r hc hf
  obtain ⟨t, r', hexec, hr', hcode⟩ := exec_leaves_code i hc hf
  refine ⟨t, r', hexec, hr', hcode.trans ?_⟩
  cases i with
  | select => exact selectRule_code s r
  | seed => exact seedRule_code s.draw r
  | step => exact stepRule_code r
  | ldtaps imm => exact ldtapsRule_code imm r
  | ldreg imm => exact ldregRule_code imm r
  | readPool imm => exact readPoolRule_code s imm r
  | readTaps | readDeg | readReg | readFault | readPoolcount => rfl

/-- Settles O18: a command that completes answers below `2^31` (`rule_response_lt`), so this one faulted or was refused
(`exec_completes_or_errs`). -/
theorem faultsArePrecise : Obligations.FaultsArePrecise := by
  intro i s t r w hc h hresp hw
  obtain ⟨r', v, hrule, rfl⟩ | ⟨c, hne, rfl, hold, hnew⟩ := exec_completes_or_errs hc h
  · obtain rfl : v = w := by simpa using hresp
    exact absurd (rule_response_lt hrule) (Nat.not_lt.mpr hw)
  · exact ⟨c, hne, by rw [errorResponse_eq], hold, hnew⟩

/-- Settles O8: by the kind of the oldest event, and of the word. -/
theorem stepRunsDecodedCommand : Obligations.StepRunsDecodedCommand :=
  ⟨fun _ _ _ _ _ _ hh hw => (step_eq_execWord hh).trans (execWord_of_decoded hw _),
    fun _ _ _ _ _ hh hw => (step_eq_execWord hh).trans (execWord_of_illegal hw _),
    fun _ => step_of_host_nil⟩

/-- Settles O9: a port past the last instance addresses none, and a reset checks its port. -/
theorem missingPortStops : Obligations.MissingPortStops := by
  refine ⟨fun i s hport => exec_of_none (List.getElem?_eq_none hport), fun s p rest hh hp => ?_⟩
  rw [step_eq_resetPort hh]
  exact if_neg (Nat.not_lt.mpr hp)

end Sys2Proof
end

section
/-! SUPPORT. The run of an instance and the observation there, as what the instance's own entries of the trace make of
them, and the draw that each command takes (70_reset_and_hazards.md R188). -/

namespace Sys2Proof.Machine

/-- An entry of another instance is no part of the run of instance `k`. -/
theorem extendRun_of_other {k : Nat} {x : TraceEntry} (hx : x.isFor k = false) (pool : List Poly)
    (run : List Exchange) : extendRun pool k run x = run := by
  cases x with
  | exchange port command draw response => exact if_neg (by simpa [TraceEntry.isFor] using hx)
  | reset port => exact if_neg (by simpa [TraceEntry.isFor] using hx)

/-- Only the entries of instance `k` count for its run. -/
theorem foldl_extendRun_filter (pool : List Poly) (k : Nat) (run : List Exchange) (l : List TraceEntry) :
    (l.filter (TraceEntry.isFor k)).foldl (extendRun pool k) run = l.foldl (extendRun pool k) run := by
  induction l generalizing run with
  | nil => rfl
  | cons x l ih =>
    cases hx : x.isFor k with
    | true => rw [List.filter_cons_of_pos hx, List.foldl_cons, List.foldl_cons, ih]
    | false => rw [List.filter_cons_of_neg (by simp [hx]), List.foldl_cons, extendRun_of_other hx, ih]

/-- What more of the trace adds to a run. -/
theorem State.runOf_of_trace_append {s t : State} {l : List TraceEntry} (hp : t.pool = s.pool)
    (ht : t.trace = s.trace ++ l) (k : Nat) : t.runOf k = l.foldl (extendRun s.pool k) (s.runOf k) := by
  rw [State.runOf, State.runOf, hp, ht, List.foldl_append]

/-- An accepted command, when it is answered, is one more exchange of its instance's run. -/
theorem State.runOf_accept_answered (s : State) (p d : Nat) (w : Word) (rest : List HostEvent) (r : Inst) (a : Word) :
    ((s.accept p w d rest).answered r a).runOf p = s.runOf p ++ [⟨w, drawTaken s.pool w d a, a⟩] :=
  (((s.accept p w d rest).putInst r).runOf_respond a p).trans (if_pos rfl)

/-- The observation of an instance is made of its registers and its run. -/
theorem State.observe_congr {s t : State} {k : Nat} (hi : t.insts[k]? = s.insts[k]?) (hr : t.runOf k = s.runOf k) :
    t.observe k = s.observe k := by
  unfold State.observe
  rw [hi, hr]

/-- A step for another instance keeps the run and the observation of instance `k`. -/
theorem step_of_other_port_keeps_run {s t : State} {k : Nat} {e : HostEvent} {rest : List HostEvent}
    (hh : s.host = e :: rest) (he : e.isFor k = false) (h : step s = .next t) :
    t.runOf k = s.runOf k ∧ t.observe k = s.observe k := by
  obtain ⟨hk, x, hx, ht⟩ := step_of_other_port hh he h
  have hrun : t.runOf k = s.runOf k := by
    rw [State.runOf_of_trace_append (step_keeps_pool_and_count h).1 ht, List.foldl_cons, extendRun_of_other hx,
      List.foldl_nil]
  exact ⟨hrun, State.observe_congr hk hrun⟩

/-- Its reset leaves an instance with registers 0 and an empty run (R180, R188). -/
theorem step_of_reset_clears {s t : State} {k : Nat} {rest : List HostEvent} (hh : s.host = .reset k :: rest)
    (h : step s = .next t) : k < s.insts.length ∧ t.insts[k]? = some Inst.reset ∧ t.runOf k = [] := by
  rw [step_eq_resetPort hh] at h
  have hrun : t.runOf k = [] := by rw [runOf_resetPort h, if_pos rfl]
  obtain ⟨hlt, rfl⟩ := resetPort_cases h
  exact ⟨hlt, List.getElem?_set_self hlt, hrun⟩

/-- A run of the block passes through the state in which the first of its events are taken. -/
theorem runAll_passes {s t : State} {before rest : List HostEvent} (hh : s.host = before ++ rest)
    (h : runAll s = .next t) :
    ∃ m, m.host = rest ∧ m.pool = s.pool ∧ m.insts.length = s.insts.length ∧ runAll m = .next t := by
  induction before generalizing s with
  | nil => exact ⟨s, hh, rfl, rfl, h⟩
  | cons e before ih =>
    obtain ⟨n, hn, hrun⟩ := (runAll_next_iff hh).mp h
    have hnhost : n.host = before ++ rest := by rw [step_host hn, hh, List.cons_append, List.tail_cons]
    obtain ⟨hnpool, hncount⟩ := step_keeps_pool_and_count hn
    obtain ⟨m, hm, hmpool, hmcount, hmrun⟩ := ih hnhost hrun
    exact ⟨m, hm, hmpool.trans hnpool, hmcount.trans hncount, hmrun⟩

/-- A run of the block takes every event. -/
theorem runAll_host {s t : State} (h : runAll s = .next t) : t.host = [] := by
  rw [runFor_host h, List.drop_length]

theorem runAll_keeps_pool {s t : State} (h : runAll s = .next t) : t.pool = s.pool := by
  obtain ⟨m, hm, hpool, -, hrun⟩ := runAll_passes (s.host.append_nil).symm h
  cases (runAll_of_host_nil hm).symm.trans hrun
  exact hpool

/-- An error response has `ERR` set (30_encoding.md R66). -/
theorem getLsbD_errorResponse_err (c : Code) : (errorResponse c).getLsbD 31 = true := by
  simp [errorResponse]

/-- A command that faulted or was refused took no draw. -/
theorem drawTaken_of_error (pool : List Poly) (w : Word) (draw : Nat) (c : Code) :
    drawTaken pool w draw (errorResponse c) = none := if_pos (getLsbD_errorResponse_err c)

/-- Only SELECT and SEED take a draw (41_lfsr_engine.md R119). -/
theorem drawTaken_of_other {w : Word} (hselect : decode w ≠ some .select) (hseed : decode w ≠ some .seed)
    (pool : List Poly) (draw : Nat) (a : Word) : drawTaken pool w draw a = none := by
  rw [drawTaken, if_neg hselect, if_neg hseed, ite_self]

/-- A response below `2^31` has `ERR` clear (30_encoding.md R66). -/
theorem getLsbD_err_of_lt {a : Word} (h : a.toNat < 2 ^ 31) : ¬ a.getLsbD 31 = true := by
  rw [BitVec.getLsbD, Nat.testBit_lt_two_pow h]
  exact Bool.false_ne_true

theorem drawTaken_of_select {w a : Word} (hw : decode w = some .select) (ha : a.toNat < 2 ^ 31) (pool : List Poly)
    (draw : Nat) : drawTaken pool w draw a = some (drawIndex draw pool.length) := by
  rw [drawTaken, if_neg (getLsbD_err_of_lt ha), if_pos hw]

theorem drawTaken_of_seed {w a : Word} (hw : decode w = some .seed) (ha : a.toNat < 2 ^ 31) (pool : List Poly)
    (draw : Nat) : drawTaken pool w draw a = some a.toNat := by
  rw [drawTaken, if_neg (getLsbD_err_of_lt ha), if_neg (by simp [hw]), if_pos hw]

/-- What SELECT completes with: the tap mask of the entry at the drawn index, `REG` 0 (40_polynomial_cache.md R92). -/
theorem selectRule_completes {s : State} {r r' : Inst} {a : Word} (h : selectRule s r = .completes r' a) :
    ∃ P, s.pool[drawIndex s.draw s.pool.length]? = some P ∧ r' = { r with taps := tapsOf P, reg := 0#24 } := by
  unfold selectRule at h
  split_ifs at h with hcount
  cases h
  have hlt : drawIndex s.draw s.pool.length < s.pool.length := drawIndex_lt _ (Nat.pos_of_ne_zero hcount)
  have hread : s.poolRead (drawIndex s.draw s.poolCount) = s.pool[drawIndex s.draw s.pool.length] :=
    List.getD_eq_getElem _ _ hlt
  exact ⟨_, List.getElem?_eq_getElem hlt, by rw [hread]⟩

/-- `TAPS = P >> 1` as a number (40_polynomial_cache.md R92). -/
theorem tapsOf_eq_ofNat (P : Poly) : tapsOf P = BitVec.ofNat 24 (P.toNat / 2) := by
  rw [← tapsOf_toNat, BitVec.ofNat_toNat, BitVec.setWidth_eq]

/-- An admissible entry has a term above its constant one. -/
theorem tapsOf_ne_zero {P : Poly} (h : admissibleEntry P = true) : tapsOf P ≠ 0#24 := by
  obtain ⟨hmin, -, h0, -⟩ := (admissibleEntry_iff P).mp h
  rw [ne_eq, ← deg_eq_zero_iff, deg_tapsOf h0]
  exact Nat.ne_zero_of_lt hmin

/-- SELECT and LDTAPS configure the instance and unseed it (R182, R185). -/
theorem reconfiguration_clears_reg {i : Instr} {s : State} {r r' : Inst} {a : Word}
    (hi : i = .select ∨ ∃ imm, i = .ldtaps imm) (hpool : i = .select → admissiblePool s.pool = true)
    (h : ruleOf i s r = .completes r' a) : r'.taps ≠ 0#24 ∧ r'.reg = 0#24 := by
  obtain rfl | ⟨imm, rfl⟩ := hi
  · obtain ⟨P, hP, rfl⟩ := selectRule_completes h
    exact ⟨tapsOf_ne_zero (admissibleEntry_of_mem (hpool rfl) (List.mem_of_getElem? hP)), rfl⟩
  · by_cases himm : imm = 0#24
    · subst himm
      cases (ldtapsRule_zero r).symm.trans h
    · cases (ldtapsRule_of_ne_zero himm r).symm.trans h
      exact ⟨himm, rfl⟩

/-- What SEED completes with: a drawn value of the range, loaded and answered (41_lfsr_engine.md R118). -/
theorem seedRule_completes {draw : Nat} {r r' : Inst} {a : Word} (h : seedRule draw r = .completes r' a) :
    1 ≤ a.toNat ∧ a.toNat < 2 ^ deg r.taps ∧ r'.reg.toNat = a.toNat := by
  unfold seedRule at h
  split_ifs at h with hdeg
  cases h
  have hanswer : (regResponse (drawSeed draw (deg r.taps))).toNat = (drawSeed draw (deg r.taps)).toNat :=
    BitVec.toNat_setWidth_of_le (by decide)
  obtain ⟨hpos, hlt⟩ := drawSeed_range draw (Nat.pos_of_ne_zero hdeg) (deg_le r.taps)
  rw [hanswer]
  exact ⟨hpos, hlt, rfl⟩

/-- A command other than a READ completes on a running instance, or it answers the code that it leaves in `FAULT`
(60_exceptions.md R151, R152). -/
theorem exec_completes_or_halts {i : Instr} {s t : State} {r : Inst} (hi : i.isRead = false)
    (hc : s.current = some r) (h : exec i s = .next t) :
    (r.fault = 0#4 ∧ ∃ r' a, ruleOf i s r = .completes r' a ∧ t = s.answered r' a) ∨
    (∃ c : Code, c ≠ 0#4 ∧ t = s.answered { r with fault := c } (errorResponse c)) := by
  rw [exec_eq_rule, if_neg (by simp [hi])] at h
  obtain ⟨q, hq, hcases⟩ := runCommand_cases h
  obtain rfl : q = r := Option.some.inj (hq.symm.trans hc)
  obtain ⟨hf, rfl⟩ | ⟨hf, r', a, hrule, rfl⟩ | ⟨-, c, -, rfl⟩ := hcases
  · exact .inr ⟨q.fault, hf, rfl⟩
  · exact .inl ⟨hf, r', a, hrule, rfl⟩
  · exact .inr ⟨causeCode c, (causeCode_range c).1, rfl⟩

/-- The draw that a word takes, and what it is used for: of a SELECT that completes the index of the entry loaded, of a
SEED that completes the value loaded; every other word takes none. -/
theorem execWord_draw_cases {w : Word} {s t : State} {r : Inst} (hc : s.current = some r)
    (h : execWord w s = .next t) :
    ∃ r' a, t = s.answered r' a ∧
      ((drawTaken s.pool w s.draw a = none ∧
          (r'.fault ≠ 0#4 ∨ (decode w ≠ some .select ∧ decode w ≠ some .seed))) ∨
       (decode w = some .select ∧ r'.fault = 0#4 ∧ ∃ v P, drawTaken s.pool w s.draw a = some v ∧
          s.pool[v]? = some P ∧ r'.taps = tapsOf P) ∨
       (decode w = some .seed ∧ r'.fault = 0#4 ∧ ∃ v, drawTaken s.pool w s.draw a = some v ∧
          1 ≤ v ∧ v < 2 ^ deg r.taps ∧ r'.reg.toNat = v)) := by
  by_cases hselect : decode w = some .select
  · rw [execWord_of_decoded hselect] at h
    obtain ⟨hf, r', a, hrule, rfl⟩ | ⟨c, hne, rfl⟩ := exec_completes_or_halts rfl hc h
    · obtain ⟨P, hP, rfl⟩ := selectRule_completes hrule
      exact ⟨_, a, rfl, .inr (.inl ⟨hselect, hf, _, P, drawTaken_of_select hselect (rule_response_lt hrule) _ _, hP,
        rfl⟩)⟩
    · exact ⟨_, _, rfl, .inl ⟨drawTaken_of_error _ _ _ _, .inl hne⟩⟩
  by_cases hseed : decode w = some .seed
  · rw [execWord_of_decoded hseed] at h
    obtain ⟨hf, r', a, hrule, rfl⟩ | ⟨c, hne, rfl⟩ := exec_completes_or_halts rfl hc h
    · obtain ⟨hpos, hlt, hreg⟩ := seedRule_completes hrule
      exact ⟨r', a, rfl, .inr (.inr ⟨hseed, (rule_keeps_fault hrule).trans hf, a.toNat,
        drawTaken_of_seed hseed (rule_response_lt hrule) _ _, hpos, hlt, hreg⟩)⟩
    · exact ⟨_, _, rfl, .inl ⟨drawTaken_of_error _ _ _ _, .inl hne⟩⟩
  · obtain ⟨-, r', a, -, rfl⟩ := execWord_shape h
    exact ⟨r', a, rfl, .inl ⟨drawTaken_of_other hselect hseed _ _ _, .inr ⟨hselect, hseed⟩⟩⟩

end Sys2Proof.Machine
end

section
/-! Reset, the run of an instance, its end and the draws in it (70_reset_and_hazards.md R180, R185, R188). -/

namespace Sys2Proof
open Sys2Proof.Machine

/-- Settles O57: the run passes through the reset, which leaves instance `k` as it is in a block just built, and from
there `runAll_projects` gives the same registers and the same entries of `k`. -/
theorem endObservationForgetsBeforeReset : Obligations.EndObservationForgetsBeforeReset := by
  intro s t k before after hh h
  obtain ⟨m, hm, hmpool, hmcount, hmrun⟩ := runAll_passes hh h
  obtain ⟨n, hn, hrun⟩ := (runAll_next_iff hm).mp hmrun
  obtain ⟨hlt, hnk, hnrun⟩ := step_of_reset_clears hm hn
  have hnpool : n.pool = s.pool := (step_keeps_pool_and_count hn).1.trans hmpool
  have hnhost : n.host = after := by rw [step_host hn, hm, List.tail_cons]
  have hbuilt : (State.powerUp s.pool s.insts.length).insts[k]? = n.insts[k]? := by
    rw [hnk, State.powerUp_insts, ← hmcount, List.getElem?_replicate_of_lt hlt]
  obtain ⟨u, hu, huk, -, l, hl, hl'⟩ := runAll_projects
    (s' := { State.powerUp s.pool s.insts.length with host := after.filter (HostEvent.isFor k) })
    (by rw [hnhost]) hbuilt hnpool.symm hrun
  have hsame : u.runOf k = t.runOf k :=
    calc u.runOf k
        = (l.filter (TraceEntry.isFor k)).foldl (extendRun s.pool k) [] :=
          State.runOf_of_trace_append (runAll_keeps_pool hu) hl' k
      _ = l.foldl (extendRun s.pool k) [] := foldl_extendRun_filter _ _ _ _
      _ = t.runOf k := by rw [State.runOf_of_trace_append (runAll_keeps_pool hrun) hl, hnrun, hnpool]
  exact ⟨u, hu, hsame, State.observe_congr huk hsame⟩

/-- Settles O34: both rules clear `REG` and leave a nonzero mask, and the rule of STEP then raises UNSEEDED. -/
theorem reconfigurationUnseeds : Obligations.ReconfigurationUnseeds := by
  intro i s t r r' hi (hc : s.current = some r) hf hpool h hr' hf'
  have hnotRead : i.isRead = false := by obtain rfl | ⟨imm, rfl⟩ := hi <;> rfl
  obtain ⟨-, q, a, hrule, rfl⟩ | ⟨c, hne, rfl⟩ := exec_completes_or_halts hnotRead hc h
  · have hcur : (s.answered q a).current = some q := State.current_answered hc q a
    obtain rfl : q = r' := Option.some.inj (hcur.symm.trans hr')
    obtain ⟨htaps, hreg⟩ := reconfiguration_clears_reg hi hpool hrule
    exact ⟨hreg, exec_of_raises .step hcur hf' (stepRule_of_unseeded htaps hreg)⟩
  · obtain rfl := Option.some.inj ((State.current_answered hc _ _).symm.trans hr')
    exact absurd hf' hne

/-- Settles O54: by the kind of the event; another instance's run by `step_of_other_port_keeps_run`. -/
theorem runIsCutAtReset : Obligations.RunIsCutAtReset := by
  refine ⟨fun _ => rfl, fun s t p rest hh h => ?_, fun s t p d w rest hh h => ?_⟩
  · obtain ⟨-, hreset, hrun⟩ := step_of_reset_clears hh h
    refine ⟨hrun, ?_, fun k hk => step_of_other_port_keeps_run hh (beq_false_of_ne hk.symm) h⟩
    rw [State.observe_eq_some hreset, hrun]
    rfl
  · obtain ⟨-, r', a, -, rfl⟩ := step_of_command hh h
    exact ⟨a, State.respond_responses _ a, s.runOf_accept_answered p d w rest r' a,
      fun k hk => step_of_other_port_keeps_run hh (beq_false_of_ne hk.symm) h⟩

/-- Settles O55: by the cases of `execWord_draw_cases`; the run has one more exchange, the answer's. -/
theorem drawTakenIsDrawUsed : Obligations.DrawTakenIsDrawUsed := by
  intro s t p d w rest r r' e hh h hr hr' hrun
  rw [step_eq_execWord hh] at h
  have hc : (s.accept p w d rest).current = some r := hr
  obtain ⟨q, a, rfl, hcases⟩ := execWord_draw_cases hc h
  obtain rfl : q = r' := Option.some.inj ((State.current_answered hc q a).symm.trans hr')
  have hdraw : e.draw = drawTaken s.pool w d a := by
    rw [State.runOf_accept_answered] at hrun
    obtain rfl := List.singleton_inj.mp (List.append_cancel_left hrun)
    rfl
  obtain ⟨hnone, hwhy⟩ | ⟨hw, hf, v, P, hv, hP, htaps⟩ | ⟨hw, hf, v, hv, hpos, hlt, hreg⟩ := hcases
  · rw [hdraw.trans hnone]
    exact ⟨nofun, fun _ => hwhy⟩
  · rw [hdraw.trans hv]
    refine ⟨?_, nofun⟩
    rintro _ ⟨rfl⟩
    exact ⟨hf, .inl ⟨hw, P, hP, htaps.trans (tapsOf_eq_ofNat P)⟩⟩
  · rw [hdraw.trans hv]
    refine ⟨?_, nofun⟩
    rintro _ ⟨rfl⟩
    exact ⟨hf, .inr ⟨hw, hpos, hlt, hreg⟩⟩

/-- Settles O56: no event is left at the end; and while none is left for an instance, each step is for another one. -/
theorem endOfRun : Obligations.EndOfRun := by
  constructor
  · intro s t k r h hr
    have hhost := runAll_host h
    have hended : t.runEnded k = true := by rw [State.runEnded, hhost]; rfl
    refine ⟨hhost, hended, ?_, ?_⟩
    · rw [endObservation, h]
      exact State.observe_eq_some hr
    · simp [State.endedInFault, hended, hr]
  · intro s t k hended h
    cases hh : s.host with
    | nil =>
      cases (step_of_host_nil hh).symm.trans h
      exact ⟨hended, rfl, rfl⟩
    | cons e rest =>
      simp only [State.runEnded, hh, List.any_cons, Bool.not_or, Bool.and_eq_true, Bool.not_eq_true'] at hended
      obtain ⟨he, hrest⟩ := hended
      refine ⟨?_, step_of_other_port_keeps_run hh he h⟩
      rw [State.runEnded, step_host h, hh, List.tail_cons, hrest]
      rfl

/-- Settles O10: the event's effect is that of `resetPort` on an instance that exists. -/
theorem resetEventClearsInstance : Obligations.ResetEventClearsInstance := by
  intro s p rest hh hp
  have hstep := (step_eq_resetPort hh).trans (if_pos hp)
  obtain ⟨-, hreset, -⟩ := step_of_reset_clears hh hstep
  exact ⟨_, hstep, hreset, deg_zero, fun q hq => List.getElem?_set_ne hq.symm, rfl,
    by simp [State.responses, TraceEntry.response?], rfl⟩

end Sys2Proof
end
